-- ==== Sys2Proof/Word.lean ====
section
/-! DEFINITION. The word types of the CHIP-8 core: a byte, a 16-bit word, a 12-bit address immediate, a register number, a nibble (10_state.md R11, R13, R16; 30_encoding.md R61). -/

namespace Sys2Proof

/-- One cell of memory, one V register, one timer (R10). -/
abbrev Byte := BitVec 8

/-- An opcode, `pc`, `I` or a stack entry (R10, R60). -/
abbrev Word := BitVec 16

/-- The `nnn` field of an opcode (R61). -/
abbrev Addr12 := BitVec 12

/-- The number of a V register, the `x` or `y` field of an opcode: all 16 values are legal (R63). -/
abbrev Reg := Fin 16

/-- The `n` field of an opcode, a count 0 to 15 (R61, R63). -/
abbrev Nibble := Fin 16

/-- The number of a keypad slot (R24). -/
abbrev Key := Fin 16

/-- The number of the flag register VF, the same register as `V[15]` (R7, R12). -/
abbrev VF : Reg := 15

end Sys2Proof
end

