-- ==== Sys2Proof/Syntax.lean ====
section
/-! DEFINITION. The instructions: one constructor per row of spec/opcode_table.json (30_encoding.md R65), UNKNOWN among them. Fields that the operation does not read (n of `5xyn` and `9xyn`, y of `8xy6` and `8xyE`) are kept, so that no bit of an opcode is lost. -/

namespace Sys2Proof

inductive Instr where
  /-- `00E0` CLS (R160). -/
  | cls
  /-- `00EE` RET (R100). -/
  | ret
  /-- `1nnn` JP nnn (R101). -/
  | jp (nnn : Addr12)
  /-- `2nnn` CALL nnn (R102). -/
  | call (nnn : Addr12)
  /-- `3xkk` SE Vx, kk (R103). -/
  | seImm (x : Reg) (kk : Byte)
  /-- `4xkk` SNE Vx, kk (R104). -/
  | sneImm (x : Reg) (kk : Byte)
  /-- `5xyn` SE Vx, Vy; n is not examined (R105, R70). -/
  | seReg (x y : Reg) (n : Nibble)
  /-- `6xkk` LD Vx, kk (R120). -/
  | ldImm (x : Reg) (kk : Byte)
  /-- `7xkk` ADD Vx, kk (R121). -/
  | addImm (x : Reg) (kk : Byte)
  /-- `8xy0` LD Vx, Vy (R122). -/
  | ldReg (x y : Reg)
  /-- `8xy1` OR Vx, Vy (R123). -/
  | orReg (x y : Reg)
  /-- `8xy2` AND Vx, Vy (R124). -/
  | andReg (x y : Reg)
  /-- `8xy3` XOR Vx, Vy (R125). -/
  | xorReg (x y : Reg)
  /-- `8xy4` ADD Vx, Vy (R126). -/
  | addReg (x y : Reg)
  /-- `8xy5` SUB Vx, Vy (R127). -/
  | subReg (x y : Reg)
  /-- `8xy6` SHR Vx; y is not read (R128). -/
  | shr (x y : Reg)
  /-- `8xy7` SUBN Vx, Vy (R129). -/
  | subn (x y : Reg)
  /-- `8xyE` SHL Vx; y is not read (R130). -/
  | shl (x y : Reg)
  /-- `9xyn` SNE Vx, Vy; n is not examined (R106, R70). -/
  | sneReg (x y : Reg) (n : Nibble)
  /-- `Annn` LD I, nnn (R140). -/
  | ldI (nnn : Addr12)
  /-- `Bnnn` JP V0, nnn (R107). -/
  | jpV0 (nnn : Addr12)
  /-- `Cxkk` RND Vx, kk (R131). -/
  | rnd (x : Reg) (kk : Byte)
  /-- `Dxyn` DRW Vx, Vy, n (R161). -/
  | drw (x y : Reg) (n : Nibble)
  /-- `Ex9E` SKP Vx (R170). -/
  | skp (x : Reg)
  /-- `ExA1` SKNP Vx (R171). -/
  | sknp (x : Reg)
  /-- `Fx07` LD Vx, DT (R173). -/
  | ldVxDT (x : Reg)
  /-- `Fx0A` LD Vx, K (R172). -/
  | ldVxK (x : Reg)
  /-- `Fx15` LD DT, Vx (R174). -/
  | ldDTVx (x : Reg)
  /-- `Fx18` LD ST, Vx (R175). -/
  | ldSTVx (x : Reg)
  /-- `Fx1E` ADD I, Vx (R141). -/
  | addI (x : Reg)
  /-- `Fx29` LD F, Vx (R142). -/
  | ldF (x : Reg)
  /-- `Fx33` LD B, Vx (R143). -/
  | ldB (x : Reg)
  /-- `Fx55` LD [I], Vx: store V0 to Vx (R144). -/
  | storeRegs (x : Reg)
  /-- `Fx65` LD Vx, [I]: load V0 to Vx (R145). -/
  | loadRegs (x : Reg)
  /-- UNKNOWN: an opcode that is none of the 34 operations, carried whole (R71, R88). -/
  | unknown (w : Word)
deriving DecidableEq, Repr

end Sys2Proof
end

