-- ==== Sys2Proof/WellFormed.lean ====
section
/-! DEFINITION. Which terms of `Instr` stand for an opcode: every operation with any operands does (R63: all field values are legal); an UNKNOWN does exactly when its word is one of the encodings 30_encoding.md R71 lists, family by family. -/

namespace Sys2Proof

/-- The UNKNOWN words of family 0: every word but 0x00E0 and 0x00EE (R66, R71). -/
def unknown0 (n : Nat) : Bool :=
  n != 0x00E0 && n != 0x00EE

/-- The UNKNOWN words of family 8: sub-opcodes 8 to D and F (R67, R71). -/
def unknown8 (n : Nat) : Bool :=
  [0x8, 0x9, 0xA, 0xB, 0xC, 0xD, 0xF].contains (n % 16)

/-- The UNKNOWN words of family E: low byte neither 9E nor A1 (R68, R71). -/
def unknownE (n : Nat) : Bool :=
  !([0x9E, 0xA1].contains (n % 256))

/-- The UNKNOWN words of family F: low byte none of the nine listed (R69, R71). -/
def unknownF (n : Nat) : Bool :=
  !([0x07, 0x0A, 0x15, 0x18, 0x1E, 0x29, 0x33, 0x55, 0x65].contains (n % 256))

/-- The table of R71: the UNKNOWN encodings stand in families 0, 8, E and F. -/
def unknownWord (w : Word) : Bool :=
  (w.toNat / 0x1000 == 0x0 && unknown0 w.toNat) ||
  (w.toNat / 0x1000 == 0x8 && unknown8 w.toNat) ||
  (w.toNat / 0x1000 == 0xE && unknownE w.toNat) ||
  (w.toNat / 0x1000 == 0xF && unknownF w.toNat)

/-- The well-formed instructions: all operations, and UNKNOWN with a word of R71. -/
def wellFormed : Instr → Bool
  | .unknown w => unknownWord w
  | .cls | .ret | .jp _ | .call _ | .seImm _ _ | .sneImm _ _ | .seReg _ _ _ | .ldImm _ _ | .addImm _ _
  | .ldReg _ _ | .orReg _ _ | .andReg _ _ | .xorReg _ _ | .addReg _ _ | .subReg _ _ | .shr _ _ | .subn _ _
  | .shl _ _ | .sneReg _ _ _ | .ldI _ | .jpV0 _ | .rnd _ _ | .drw _ _ _ | .skp _ | .sknp _ | .ldVxDT _
  | .ldVxK _ | .ldDTVx _ | .ldSTVx _ | .addI _ | .ldF _ | .ldB _ | .storeRegs _ | .loadRegs _ => true

end Sys2Proof
end

