-- ==== Sys2Proof/Decode.lean ====
section
/-! DEFINITION. The decoder (total on any bytes), the encoder written from the same table, the opcode map of 30_encoding.md R65 as data, and the host's `decodeTableWord`. -/

namespace Sys2Proof

/-! ## Fields (R61) -/

/-- `op`, bits 15:12: the family. -/
def opField (w : Word) : Nat := w.toNat / 0x1000

/-- `x`, bits 11:8. -/
def xField (w : Word) : Reg := ⟨w.toNat / 0x100 % 16, Nat.mod_lt _ (by decide)⟩

/-- `y`, bits 7:4. -/
def yField (w : Word) : Reg := ⟨w.toNat / 0x10 % 16, Nat.mod_lt _ (by decide)⟩

/-- `n`, bits 3:0. -/
def nField (w : Word) : Nibble := ⟨w.toNat % 16, Nat.mod_lt _ (by decide)⟩

/-- `kk`, bits 7:0. -/
def kkField (w : Word) : Byte := BitVec.ofNat 8 (w.toNat % 0x100)

/-- `nnn`, bits 11:0. -/
def nnnField (w : Word) : Addr12 := BitVec.ofNat 12 (w.toNat % 0x1000)

/-! ## Decode (R64) -/

/-- Family 0: the full 16 bits must match (R66). -/
def decode0 (w : Word) : Instr :=
  if w = 0x00E0 then .cls
  else if w = 0x00EE then .ret
  else .unknown w

/-- Family 8: the sub-opcode is bits 3:0 (R67). -/
def decode8 (w : Word) : Instr :=
  match w.toNat % 16 with
  | 0x0 => .ldReg (xField w) (yField w)
  | 0x1 => .orReg (xField w) (yField w)
  | 0x2 => .andReg (xField w) (yField w)
  | 0x3 => .xorReg (xField w) (yField w)
  | 0x4 => .addReg (xField w) (yField w)
  | 0x5 => .subReg (xField w) (yField w)
  | 0x6 => .shr (xField w) (yField w)
  | 0x7 => .subn (xField w) (yField w)
  | 0xE => .shl (xField w) (yField w)
  | _ => .unknown w

/-- Family E: the sub-opcode is bits 7:0 (R68). -/
def decodeE (w : Word) : Instr :=
  match w.toNat % 0x100 with
  | 0x9E => .skp (xField w)
  | 0xA1 => .sknp (xField w)
  | _ => .unknown w

/-- Family F: the sub-opcode is bits 7:0 (R69). -/
def decodeF (w : Word) : Instr :=
  match w.toNat % 0x100 with
  | 0x07 => .ldVxDT (xField w)
  | 0x0A => .ldVxK (xField w)
  | 0x15 => .ldDTVx (xField w)
  | 0x18 => .ldSTVx (xField w)
  | 0x1E => .addI (xField w)
  | 0x29 => .ldF (xField w)
  | 0x33 => .ldB (xField w)
  | 0x55 => .storeRegs (xField w)
  | 0x65 => .loadRegs (xField w)
  | _ => .unknown w

/-- The decode procedure of R64, on an opcode. Bits 3:0 are not examined in families 5 and 9 (R70). -/
def decodeWord (w : Word) : Instr :=
  match opField w with
  | 0x0 => decode0 w
  | 0x1 => .jp (nnnField w)
  | 0x2 => .call (nnnField w)
  | 0x3 => .seImm (xField w) (kkField w)
  | 0x4 => .sneImm (xField w) (kkField w)
  | 0x5 => .seReg (xField w) (yField w) (nField w)
  | 0x6 => .ldImm (xField w) (kkField w)
  | 0x7 => .addImm (xField w) (kkField w)
  | 0x8 => decode8 w
  | 0x9 => .sneReg (xField w) (yField w) (nField w)
  | 0xA => .ldI (nnnField w)
  | 0xB => .jpV0 (nnnField w)
  | 0xC => .rnd (xField w) (kkField w)
  | 0xD => .drw (xField w) (yField w) (nField w)
  | 0xE => decodeE w
  | _ => decodeF w  -- 0xF, the one family left: `opField` is below 16

/-- Why a list of bytes holds no instruction. -/
inductive DecodeError where
  /-- Fewer than the two bytes every instruction has (R60). -/
  | truncated
deriving DecidableEq, Repr

/-- The opcode two bytes form: the byte at the lower address is bits 15:8 (R44, R60). -/
def wordOfBytes (hi lo : Byte) : Word := BitVec.ofNat 16 (hi.toNat * 256 + lo.toNat)

/-- The two bytes of an opcode, the one at the lower address first (R44). -/
def bytesOfWord (w : Word) : List Byte := [BitVec.ofNat 8 (w.toNat / 256), BitVec.ofNat 8 (w.toNat % 256)]

/-- The decoder on bytes: the first instruction and the bytes after it. -/
def decode : List Byte → Except DecodeError (Instr × List Byte)
  | hi :: lo :: rest => .ok (decodeWord (wordOfBytes hi lo), rest)
  | _ => .error .truncated

/-! ## Encode (R61, R62, R65) -/

/-- A word of format R or D: op, x, y, n (R62). -/
def wordXYN (op : Nat) (x y : Reg) (n : Nat) : Word :=
  BitVec.ofNat 16 (op * 0x1000 + x.val * 0x100 + y.val * 0x10 + n)

/-- A word of format I or X: op, x and a low byte (R62). -/
def wordXKK (op : Nat) (x : Reg) (kk : Nat) : Word :=
  BitVec.ofNat 16 (op * 0x1000 + x.val * 0x100 + kk)

/-- A word of format A: op and a 12-bit address (R62). -/
def wordNNN (op : Nat) (nnn : Addr12) : Word :=
  BitVec.ofNat 16 (op * 0x1000 + nnn.toNat)

/-- The opcode of an instruction, by the rows of R65. -/
def encodeWord : Instr → Word
  | .cls => 0x00E0
  | .ret => 0x00EE
  | .jp nnn => wordNNN 0x1 nnn
  | .call nnn => wordNNN 0x2 nnn
  | .seImm x kk => wordXKK 0x3 x kk.toNat
  | .sneImm x kk => wordXKK 0x4 x kk.toNat
  | .seReg x y n => wordXYN 0x5 x y n.val
  | .ldImm x kk => wordXKK 0x6 x kk.toNat
  | .addImm x kk => wordXKK 0x7 x kk.toNat
  | .ldReg x y => wordXYN 0x8 x y 0x0
  | .orReg x y => wordXYN 0x8 x y 0x1
  | .andReg x y => wordXYN 0x8 x y 0x2
  | .xorReg x y => wordXYN 0x8 x y 0x3
  | .addReg x y => wordXYN 0x8 x y 0x4
  | .subReg x y => wordXYN 0x8 x y 0x5
  | .shr x y => wordXYN 0x8 x y 0x6
  | .subn x y => wordXYN 0x8 x y 0x7
  | .shl x y => wordXYN 0x8 x y 0xE
  | .sneReg x y n => wordXYN 0x9 x y n.val
  | .ldI nnn => wordNNN 0xA nnn
  | .jpV0 nnn => wordNNN 0xB nnn
  | .rnd x kk => wordXKK 0xC x kk.toNat
  | .drw x y n => wordXYN 0xD x y n.val
  | .skp x => wordXKK 0xE x 0x9E
  | .sknp x => wordXKK 0xE x 0xA1
  | .ldVxDT x => wordXKK 0xF x 0x07
  | .ldVxK x => wordXKK 0xF x 0x0A
  | .ldDTVx x => wordXKK 0xF x 0x15
  | .ldSTVx x => wordXKK 0xF x 0x18
  | .addI x => wordXKK 0xF x 0x1E
  | .ldF x => wordXKK 0xF x 0x29
  | .ldB x => wordXKK 0xF x 0x33
  | .storeRegs x => wordXKK 0xF x 0x55
  | .loadRegs x => wordXKK 0xF x 0x65
  | .unknown w => w

/-- The bytes of an instruction as memory holds them, big-endian (R44, R60). -/
def encode (i : Instr) : List Byte := bytesOfWord (encodeWord i)

/-! ## The opcode map of R65 as data -/

/-- The mask and the match value of the row of R65 an operation stands in; none for UNKNOWN, which has no row of its
own ("anything else"). -/
def rowOf : Instr → Option (Word × Word)
  | .cls => some (0xFFFF, 0x00E0)
  | .ret => some (0xFFFF, 0x00EE)
  | .jp _ => some (0xF000, 0x1000)
  | .call _ => some (0xF000, 0x2000)
  | .seImm _ _ => some (0xF000, 0x3000)
  | .sneImm _ _ => some (0xF000, 0x4000)
  | .seReg _ _ _ => some (0xF000, 0x5000)
  | .ldImm _ _ => some (0xF000, 0x6000)
  | .addImm _ _ => some (0xF000, 0x7000)
  | .ldReg _ _ => some (0xF00F, 0x8000)
  | .orReg _ _ => some (0xF00F, 0x8001)
  | .andReg _ _ => some (0xF00F, 0x8002)
  | .xorReg _ _ => some (0xF00F, 0x8003)
  | .addReg _ _ => some (0xF00F, 0x8004)
  | .subReg _ _ => some (0xF00F, 0x8005)
  | .shr _ _ => some (0xF00F, 0x8006)
  | .subn _ _ => some (0xF00F, 0x8007)
  | .shl _ _ => some (0xF00F, 0x800E)
  | .sneReg _ _ _ => some (0xF000, 0x9000)
  | .ldI _ => some (0xF000, 0xA000)
  | .jpV0 _ => some (0xF000, 0xB000)
  | .rnd _ _ => some (0xF000, 0xC000)
  | .drw _ _ _ => some (0xF000, 0xD000)
  | .skp _ => some (0xF0FF, 0xE09E)
  | .sknp _ => some (0xF0FF, 0xE0A1)
  | .ldVxDT _ => some (0xF0FF, 0xF007)
  | .ldVxK _ => some (0xF0FF, 0xF00A)
  | .ldDTVx _ => some (0xF0FF, 0xF015)
  | .ldSTVx _ => some (0xF0FF, 0xF018)
  | .addI _ => some (0xF0FF, 0xF01E)
  | .ldF _ => some (0xF0FF, 0xF029)
  | .ldB _ => some (0xF0FF, 0xF033)
  | .storeRegs _ => some (0xF0FF, 0xF055)
  | .loadRegs _ => some (0xF0FF, 0xF065)
  | .unknown _ => none

/-- The 34 rows of R65 in the source's order, each a mask and a match value. -/
def opcodeMap : List (Word × Word) :=
  [(0xFFFF, 0x00E0), (0xFFFF, 0x00EE), (0xF000, 0x1000), (0xF000, 0x2000), (0xF000, 0x3000), (0xF000, 0x4000),
   (0xF000, 0x5000), (0xF000, 0x6000), (0xF000, 0x7000)] ++
  [(0xF00F, 0x8000), (0xF00F, 0x8001), (0xF00F, 0x8002), (0xF00F, 0x8003), (0xF00F, 0x8004), (0xF00F, 0x8005),
   (0xF00F, 0x8006), (0xF00F, 0x8007), (0xF00F, 0x800E)] ++
  [(0xF000, 0x9000), (0xF000, 0xA000), (0xF000, 0xB000), (0xF000, 0xC000), (0xF000, 0xD000), (0xF0FF, 0xE09E),
   (0xF0FF, 0xE0A1)] ++
  [(0xF0FF, 0xF007), (0xF0FF, 0xF00A), (0xF0FF, 0xF015), (0xF0FF, 0xF018), (0xF0FF, 0xF01E), (0xF0FF, 0xF029),
   (0xF0FF, 0xF033), (0xF0FF, 0xF055), (0xF0FF, 0xF065)]

/-- R65: "an opcode selects the row when `opcode AND mask = match`". -/
def selects (w : Word) (row : Word × Word) : Bool := w &&& row.1 = row.2

/-! ## The host's view -/

/-- The bytes of an instruction of the opcode table given as one number of `nbits` bits: this hardware's instructions
are one 16-bit word, so the number IS the word (bit 0 the least significant), laid out big-endian. -/
def tableBytes (nbits w : Nat) : List Byte := bytesOfWord (BitVec.ofNat 16 (w % 2 ^ nbits))

/-- The instruction the decoder reads from an opcode-table word. -/
def decodeTableWord (nbits w : Nat) : Option Instr :=
  match decode (tableBytes nbits w) with
  | .ok (i, _) => some i
  | .error _ => none

end Sys2Proof
end

