-- ==== Sys2Proof/Config.lean ====
section
/-! DEFINITION. What an implementation fixes: the constants of 00_scope.md R5, the types of its open parameters, and the free values (constants with no body, so that nothing can be proved of what they are). -/

namespace Sys2Proof.Config

/-- `MEM_SIZE`: the number of cells of `mem` (R5, R40). -/
abbrev memSize : Nat := 4096

/-- `FONT_BASE`: the address of glyph 0 (R5, R221). -/
abbrev fontBase : Nat := 0x050

/-- `FONT_SIZE`: 16 glyphs of 5 bytes (R5, R221). -/
abbrev fontSize : Nat := 80

/-- `PROG_BASE`: where a ROM is loaded and where `pc` starts (R5, R223). -/
abbrev progBase : Nat := 0x200

/-- `ROM_MAX`: the longest ROM that fits (R5, R224). -/
abbrev romMax : Nat := 3584

/-- `OOB_POLICY`: what an access at an address of 4096 or more does (R42; 92_eei_decisions.md D2). -/
inductive OobPolicy where
  /-- The access raises AddressOutOfRange (the spec's default). -/
  | fault
  /-- The access uses the address modulo 4096. -/
  | wrap12
deriving DecidableEq, Repr

/-- `KEY_INDEX_POLICY`: what `Ex9E` and `ExA1` do with a key number above 15 (R177; D4). -/
inductive KeyIndexPolicy where
  /-- The instruction raises KeyIndexOutOfRange (the spec's default). -/
  | fault
  /-- The key number is taken modulo 16. -/
  | mask4
  /-- The key number names a slot that is never down. -/
  | notPressed
deriving DecidableEq, Repr

/-- `KEYWAIT_PICK`: which of several keys that are down `Fx0A` reports (R172; D5). -/
inductive KeyPickPolicy where
  /-- Any of them (the spec's default): a free value. -/
  | any
  /-- The one with the lowest number. -/
  | lowest
  /-- The one with the highest number. -/
  | highest
deriving DecidableEq, Repr

/-- `TONE_POLICY`: the tone request of a step that finds ST at 2 or more (R87; D6). -/
inductive TonePolicy where
  /-- Not fixed (the spec's default): a free value. -/
  | atLeastLast
  /-- Every step that finds ST nonzero requests a tone. -/
  | everyNonzero
  /-- Only the step that takes ST from 1 to 0 requests a tone. -/
  | lastOnly
deriving DecidableEq, Repr

/-- `FONT_TABLE`: 80 bytes, glyph d at positions 5d to 5d + 4 (R5, R221). -/
abbrev Font := Vector Byte fontSize

/-- `PIXEL_ON`: the word a lit pixel holds, of any width `w`, nonzero (R5, R23; 93_implementation_defined.md U10). -/
abbrev PixelOn (w : Nat) := { on : BitVec w // on ≠ 0 }

/-- The open parameters of R5, each "a parameter the model takes as an argument". `PIXEL_ON` is not among them: no rule
of the step depends on it (R162); Machine/Lifecycle.lean takes a `PixelOn` as an argument where a pixel's word is shown. -/
structure Params where
  font : Font
  oob : OobPolicy
  keyIndex : KeyIndexPolicy
  keyPick : KeyPickPolicy
  tone : TonePolicy
deriving DecidableEq, Repr

/-- FREE VALUE: the byte the random source gives, drawn at the step's `fresh` counter, when none is injected (R131;
93_implementation_defined.md U12). It has no body: nothing is known of it. -/
opaque freeRandom : Nat → Byte

/-- FREE VALUE: the choice among several keys that are down under `KEYWAIT_PICK = any`, drawn at `fresh` (R172; U3). -/
opaque freeKeyPick : Nat → Nat

/-- FREE VALUE: the tone request of a step that finds ST at 2 or more under `TONE_POLICY = at_least_last`, drawn at
`fresh` (R87; U4). -/
opaque freeTone : Nat → Bool

end Sys2Proof.Config
end

