-- ==== Sys2Proof/Machine/Params.lean ====
section
/-! DEFINITION. The default values of the open parameters (00_scope.md R5, 70_reset_and_hazards.md R222). They stand apart from the types in Config so that a value can be changed without touching a type. -/

namespace Sys2Proof.Machine

open Sys2Proof.Config

/-- The glyphs 0 to 7 of the default FONT_TABLE (R222). -/
def glyphsLow : Vector Byte 40 :=
  #v[0xF0, 0x90, 0x90, 0x90, 0xF0,  0x20, 0x60, 0x20, 0x20, 0x70,
     0xF0, 0x10, 0xF0, 0x80, 0xF0,  0xF0, 0x10, 0xF0, 0x10, 0xF0,
     0x90, 0x90, 0xF0, 0x10, 0x10,  0xF0, 0x80, 0xF0, 0x10, 0xF0,
     0xF0, 0x80, 0xF0, 0x90, 0xF0,  0xF0, 0x10, 0x20, 0x40, 0x40]

/-- The glyphs 8 to F of the default FONT_TABLE (R222). -/
def glyphsHigh : Vector Byte 40 :=
  #v[0xF0, 0x90, 0xF0, 0x90, 0xF0,  0xF0, 0x90, 0xF0, 0x10, 0xF0,
     0xF0, 0x90, 0xF0, 0x90, 0x90,  0xE0, 0x90, 0xE0, 0x90, 0xE0,
     0xF0, 0x80, 0x80, 0x80, 0xF0,  0xE0, 0x90, 0x90, 0x90, 0xE0,
     0xF0, 0x80, 0xF0, 0x80, 0xF0,  0xF0, 0x80, 0xF0, 0x80, 0x80]

/-- The default FONT_TABLE. PRESUMED (the spec gives it from general knowledge, D13; log 6): unsafe for a claim that
depends on a glyph. -/
def fontTable : Font := glyphsLow ++ glyphsHigh

/-- The parameters at the spec's defaults (R5). DESIGN CHOICE of the spec, D2, D4, D5, D6, D13 (log 1 to 6). -/
def defaultParams : Params where
  font := fontTable
  oob := .fault
  keyIndex := .fault
  keyPick := .any
  tone := .atLeastLast

end Sys2Proof.Machine
end

