-- ==== Sys2Proof/Machine/State.lean ====
section
/-! DEFINITION. The state of the core: the eleven items of 10_state.md R10 under the spec's own names, the inputs and outputs of a step (R27, R93), the open parameters (00_scope.md R5), and the reasons a step can stop. Plain data throughout. -/

namespace Sys2Proof.Machine

open Sys2Proof.Config

/-- `mem`, as the cells that differ from the contents construction gives it (`unlisted` in Machine/Ops.lean), addresses
strictly rising; `Memory.wf` states the form. -/
abbrev Memory := List Host.Cell

/-- `Pix`: 32 rows, each of 64 pixels, a pixel a truth value (R23). -/
abbrev Screen := Vector (Vector Bool 64) 32

/-- `key`: slot k is true while key k is down (R24). -/
abbrev Keypad := Vector Bool 16

/-- What an access to memory is for (R42). -/
inductive AccessKind where
  | fetch
  | read
  | write
deriving DecidableEq, Repr

/-- The non-fatal events of a step (R190). None changes control flow or any of the eleven items. -/
inductive Event where
  /-- The output signal `unknown_op`, with the opcode (R191). -/
  | unknownOpcode (opcode : Word)
  /-- `2nnn` at sp = 16: silent, it has no signal; recorded so that the case can be referred to (R192). -/
  | stackOverflow
  /-- `00EE` at sp = 0: silent likewise (R193). -/
  | stackUnderflow
deriving DecidableEq, Repr

structure State where
  /-- Memory (R10 item 1, R40). -/
  mem : Memory
  /-- The registers V0 to VF (item 2, R11). -/
  V : Vector Byte 16
  /-- The index register (item 3, R16). -/
  I : Word
  /-- The program counter (item 4, R13). -/
  pc : Word
  /-- The return addresses (item 5, R17). -/
  stack : Vector Word 16
  /-- The number of return addresses held, 0 to 16 (item 6, R18). -/
  sp : Fin 17
  /-- The delay timer (item 7, R19). -/
  DT : Byte
  /-- The sound timer (item 8, R19). -/
  ST : Byte
  /-- The screen (item 9, R23). -/
  pix : Screen
  /-- The keypad as the Input Adapter last wrote it (item 10, R24). -/
  key : Keypad
  /-- The last-fetched opcode (item 11, R20). -/
  opcode : Word
  /-- INPUT `key_in`: the keypad at the coming steps, the next step's first; when it is empty the adapter writes
  nothing and `key` stays (R27, R90; log 8). -/
  keyIn : List Keypad
  /-- INPUT `rnd_in`: the bytes the coming `Cxkk` draw; when it is empty a draw is a free value (R28; log 7). -/
  rndIn : List Byte
  /-- OUTPUT `tone_req` of the last step (R87). -/
  toneReq : Bool
  /-- OUTPUT: the event of the last step, if it had one (R93, R190; log 11). -/
  event : Option Event
  /-- The MODEL's counter at which free values are drawn; every step advances it (log 12). -/
  fresh : Nat
  /-- The open parameters of R5, read by the step and written by nothing (log 1). -/
  params : Params
deriving DecidableEq, Repr

/-- The reasons a step has no successor state (R196). -/
inductive Fault where
  /-- An address of 4096 or more was presented under `OOB_POLICY = fault`. Raised by the fetch and by `Dxyn`, `Fx33`,
  `Fx55`, `Fx65`. Safe: the real core goes on in a way the spec does not give. -/
  | addressOutOfRange (addr : Nat) (kind : AccessKind)
  /-- A key number above 15 was presented under `KEY_INDEX_POLICY = fault`. Raised by `Ex9E` and `ExA1`. Safe, for the
  same reason. -/
  | keyIndexOutOfRange (v : Byte)
deriving DecidableEq, Repr

/-- The reasons the model gives an instruction no meaning. -/
inductive Refusal where
  /-- An instruction of the opcode table whose meaning is not written yet; raised by `exec` alone. Safe. No
  instruction is in this case. -/
  | notModelled (mnemonic : String)
deriving DecidableEq, Repr

/-- The state construction leaves, for any parameters (R31, R220). The zeros of `I`, `sp`, `stack`, `DT`, `ST`,
`opcode`, the clear screen and the idle keypad are DESIGN CHOICE, the spec's D14 (log 9); the model's own fields start
empty (log 10). Memory lists nothing: what it then reads as is `unlisted`. -/
def State.construct (p : Params) : State where
  mem := []
  V := Vector.replicate 16 0
  I := 0
  pc := 0x0200
  stack := Vector.replicate 16 0
  sp := 0
  DT := 0
  ST := 0
  pix := Vector.replicate 32 (Vector.replicate 64 false)
  key := Vector.replicate 16 false
  opcode := 0
  keyIn := []
  rndIn := []
  toneReq := false
  event := none
  fresh := 0
  params := p

/-- The machine right after reset: construction at the default parameters (R31, R220). -/
def State.reset : State := State.construct defaultParams

end Sys2Proof.Machine
end

