-- ==== Sys2Proof/Machine/Ops.lean ====
section
/-! DEFINITION. The named operations over the state: registers, memory (20_memory.md R42, R43), the return stack (41_control_flow.md R100, R102), events and faults (60_exceptions.md R190, R196), and the phases of a step (40_step_cycle.md R80). This hardware has no exception entry and no return from one (R199, R200): an event is `State.report`, a fault is an `Except.error`. -/

namespace Sys2Proof.Machine

open Sys2Proof.Config

/-! ## Updates of one item -/

/-- `V[x]` (R7). -/
def State.getV (s : State) (x : Reg) : Byte := s.V[x]

/-- `V[x] <- v` (R7). -/
def State.setV (s : State) (x : Reg) (v : Byte) : State := { s with V := s.V.set x v }

/-- `I <- v` (R7). -/
def State.setI (s : State) (v : Word) : State := { s with I := v }

/-- `pc <- target` (R7). -/
def State.setPc (s : State) (target : Word) : State := { s with pc := target }

/-- `DT <- v`. -/
def State.setDT (s : State) (v : Byte) : State := { s with DT := v }

/-- `ST <- v`. -/
def State.setST (s : State) (v : Byte) : State := { s with ST := v }

/-- The whole screen is replaced. -/
def State.setPix (s : State) (p : Screen) : State := { s with pix := p }

/-- `report e`: a non-fatal event is signalled and the step goes on (R7, R190). -/
def State.report (s : State) (e : Event) : State := { s with event := some e }

/-- A skip adds 2 to the already advanced pc, modulo 65536, when its condition holds (R108). -/
def State.skipIf (s : State) (c : Bool) : State := if c then s.setPc (s.pc + 2) else s

/-! ## Memory -/

/-- What an address that memory does not list reads as: what construction put there, the font at 0x050 and 0 elsewhere
(R31, R220, R221). -/
def unlisted (f : Font) (a : Nat) : Byte :=
  if h : fontBase ≤ a ∧ a < fontBase + fontSize then f[a - fontBase] else 0

/-- The byte of cell `a`. -/
def Memory.read (f : Font) : Memory → Nat → Byte
  | [], a => unlisted f a
  | c :: m, a => if a = c.1 then c.2 else Memory.read f m a

/-- `mem` with cell `a` listed as `v`, in the order of the addresses. -/
def Memory.insert (a : Nat) (v : Byte) : Memory → Memory
  | [] => [(a, v)]
  | c :: m =>
    if a < c.1 then (a, v) :: c :: m
    else if a = c.1 then (a, v) :: m
    else c :: Memory.insert a v m

/-- `mem` with cell `a` holding `v`: a cell that again holds what it reads as unlisted is not listed. -/
def Memory.write (f : Font) (m : Memory) (a : Nat) (v : Byte) : Memory :=
  if v = unlisted f a then m.filter (fun c => c.1 ≠ a) else Memory.insert a v m

/-- The canonical form: addresses strictly rising, all below 4096 (R42), and no cell listed with what it reads as
unlisted. -/
abbrev Memory.wf (f : Font) (m : Memory) : Prop :=
  m.Pairwise (fun c d => c.1 < d.1) ∧ ∀ c ∈ m, c.1 < memSize ∧ c.2 ≠ unlisted f c.1

/-- The byte cell `a` of the machine's memory holds. -/
def State.byteAt (s : State) (a : Nat) : Byte := Memory.read s.params.font s.mem a

/-- Cell `a` of the machine's memory takes the byte `v`. -/
def State.putByte (s : State) (a : Nat) (v : Byte) : State :=
  { s with mem := Memory.write s.params.font s.mem a v }

/-- The cells listed take their bytes, in the order listed. -/
def State.putBytes (s : State) (cells : List (Nat × Byte)) : State :=
  cells.foldl (fun t c => t.putByte c.1 c.2) s

/-- `EffAddr(a, kind)` (R43): the cell an address reaches, or the fault of R42. -/
def effAddr (p : OobPolicy) (kind : AccessKind) (a : Nat) : Except Fault Nat :=
  if a < memSize then .ok a
  else match p with
    | .wrap12 => .ok (a % memSize)
    | .fault => .error (.addressOutOfRange a kind)

/-- `check EffAddr(a + k, kind) for k = 0 .. n - 1`, ascending: the cells reached, or the first fault (R42, R46). The
sums are unbounded (R146). -/
def effAddrs (p : OobPolicy) (kind : AccessKind) (a : Nat) : Nat → Except Fault (List Nat)
  | 0 => .ok []
  | n + 1 =>
    match effAddr p kind a with
    | .error f => .error f
    | .ok e =>
      match effAddrs p kind (a + 1) n with
      | .error f => .error f
      | .ok es => .ok (e :: es)

/-- The n bytes at `a`, `a + 1`, ... (R43, R46); a read has no side effect. -/
def State.loadBytes (s : State) (kind : AccessKind) (a n : Nat) : Except Fault (List Byte) :=
  match effAddrs s.params.oob kind a n with
  | .error f => .error f
  | .ok es => .ok (es.map s.byteAt)

/-- The bytes stored at `a`, `a + 1`, ...: all addresses are checked before the first write (R42, R43, R46). -/
def State.storeBytes (s : State) (a : Nat) (bs : List Byte) : Except Fault State :=
  match effAddrs s.params.oob .write a bs.length with
  | .error f => .error f
  | .ok es => .ok (s.putBytes (es.zip bs))

/-- `V[k], V[k+1], ... <- bs`, ascending. -/
def setRegsFrom (V : Vector Byte 16) (k : Nat) : List Byte → Vector Byte 16
  | [] => V
  | b :: bs => if h : k < 16 then setRegsFrom (V.set k b) (k + 1) bs else V

/-! ## The return stack -/

/-- `2nnn`'s push (R102): the pc saved in the next free entry and the jump made, or, at sp = 16, the silent
StackOverflow with nothing changed (R192). -/
def State.callTo (s : State) (target : Word) : State :=
  if h : s.sp.val < 16 then
    { s with stack := s.stack.set s.sp.val s.pc, sp := ⟨s.sp.val + 1, by omega⟩, pc := target }
  else s.report .stackOverflow

/-- `00EE`'s pop (R100): the most recent return address loaded into pc, its entry kept (R17), or, at sp = 0, the
silent StackUnderflow with nothing changed (R193). -/
def State.popReturn (s : State) : State :=
  if h : 0 < s.sp.val then
    { s with sp := ⟨s.sp.val - 1, by omega⟩, pc := s.stack[s.sp.val - 1] }
  else s.report .stackUnderflow

/-! ## Inputs -/

/-- `RandomByte()` (R131): the byte injected for this draw, or a free value; at most one byte is taken. -/
def State.randomByte (s : State) : Byte :=
  match s.rndIn with
  | b :: _ => b
  | [] => freeRandom s.fresh

/-- The draw has taken its byte from the random source. -/
def State.afterDraw (s : State) : State := { s with rndIn := s.rndIn.tail }

/-- `keys <- key_in` (R80 phase 3, R90): the Input Adapter's next snapshot, if it has written one. -/
def State.sampleKeys (s : State) : State :=
  match s.keyIn with
  | k :: ks => { s with key := k, keyIn := ks }
  | [] => s

/-! ## The phases of a step (R80) -/

/-- Phase 1: `MemRead(pc, 2)`, two bytes combined big-endian (R43, R81). -/
def State.fetch (s : State) : Except Fault Word :=
  match effAddr s.params.oob .fetch s.pc.toNat with
  | .error f => .error f
  | .ok e0 =>
    match effAddr s.params.oob .fetch (s.pc.toNat + 1) with
    | .error f => .error f
    | .ok e1 => .ok (wordOfBytes (s.byteAt e0) (s.byteAt e1))

/-- Phases 1 to 3 after the fetch of `w`: `opcode` latched (R83), pc advanced by 2 (R82), the keypad sampled (R90); the
step has reported nothing yet. -/
def State.beginStep (s : State) (w : Word) : State :=
  { s.sampleKeys with opcode := w, pc := s.pc + 2, event := none }

/-- `if t > 0 then t - 1`: a timer never passes 0 (R86, R87). -/
def countDown (t : Byte) : Byte := if t = 0 then 0 else t - 1

/-- `Tone(s)` (R87), the free value given by the caller. -/
def toneOf (p : TonePolicy) (free : Bool) (st : Byte) : Bool :=
  if st = 0 then false
  else if st = 1 then true
  else match p with
    | .atLeastLast => free
    | .everyNonzero => true
    | .lastOnly => false

/-- Phases 5 and 6: both timers tick and the tone request is made (R86, R87). -/
def State.tick (s : State) : State :=
  { s with
    DT := countDown s.DT
    ST := countDown s.ST
    toneReq := toneOf s.params.tone (freeTone s.fresh) s.ST
    fresh := s.fresh + 1 }

/-- A computation that may fault, as a step's outcome. -/
def outcome : Except Fault State → Host.Outcome State Fault Refusal
  | .ok s => .next s
  | .error f => .fault f

end Sys2Proof.Machine
end

