-- ==== Sys2Proof/Machine/Flags.lean ====
section
/-! DEFINITION. The flag computations: the conditions of the six operations that write VF (10_state.md R14) and the byte VF then holds. -/

namespace Sys2Proof.Machine

/-- `8xy4`: the sum before wrap-around is above 255 (R126, R134). -/
def carryOut (a b : Byte) : Bool := a.toNat + b.toNat > 255

/-- `8xy5` as `notBorrow a b`, `8xy7` as `notBorrow b a`: the first operand is at least the second (R127, R129). -/
def notBorrow (a b : Byte) : Bool := a.toNat ≥ b.toNat

/-- `8xy6`: bit 0 before the shift (R128). -/
def shiftedOutLow (a : Byte) : Bool := a.getLsbD 0

/-- `8xyE`: bit 7 before the shift (R130). -/
def shiftedOutHigh (a : Byte) : Bool := a.getLsbD 7

/-- VF is written as 0 or 1 (R14). -/
def flagByte (c : Bool) : Byte := if c then 1 else 0

/-- `V[x] <- v`, then `VF <- c`: the flag is written last, so it stands when x is F (R132). -/
def State.setVFlag (s : State) (x : Reg) (v : Byte) (c : Bool) : State :=
  (s.setV x v).setV VF (flagByte c)

end Sys2Proof.Machine
end

