-- ==== Sys2Proof/Machine/Operands.lean ====
section
/-! DEFINITION. The operand forms: an address immediate, a memory operand at I plus an offset, the registers V0 to Vx, a key number, the keys that are down, a glyph, decimal digits, the cells of a sprite. -/

namespace Sys2Proof.Machine

open Sys2Proof.Config

/-- `nnn` written to pc or I is zero-extended to 16 bits (R63). -/
def zext (nnn : Addr12) : Word := nnn.setWidth 16

/-- `nnn + V[0]`, modulo 65536 and not reduced to 12 bits (R63, R107). -/
def offsetTarget (nnn : Addr12) (v0 : Byte) : Word := BitVec.ofNat 16 (nnn.toNat + v0.toNat)

/-- `I + V[x]`, modulo 65536 (R141). -/
def indexSum (i : Word) (v : Byte) : Word := BitVec.ofNat 16 (i.toNat + v.toNat)

/-- `0x050 + V[x] * 5`, the whole of V[x] used (R142). -/
def glyphAddr (v : Byte) : Word := BitVec.ofNat 16 (fontBase + v.toNat * 5)

/-- Hundreds, tens and ones, one decimal digit a byte (R143). -/
def bcdDigits (v : Byte) : List Byte :=
  [BitVec.ofNat 8 (v.toNat / 100), BitVec.ofNat 8 (v.toNat / 10 % 10), BitVec.ofNat 8 (v.toNat % 10)]

/-- `V[0..x]`, both ends included (R144). -/
def State.regsUpTo (s : State) (x : Reg) : List Byte := s.V.toList.take (x.val + 1)

/-! ## Keys -/

/-- `KeyIndex(v)` (R177): a slot, or none for the slot that is never down. -/
def keyIndex (p : KeyIndexPolicy) (v : Byte) : Except Fault (Option Key) :=
  if h : v.toNat < 16 then .ok (some ⟨v.toNat, h⟩)
  else match p with
    | .fault => .error (.keyIndexOutOfRange v)
    | .mask4 => .ok (some ⟨v.toNat % 16, Nat.mod_lt _ (by decide)⟩)
    | .notPressed => .ok none

/-- `KeyDown` of what `keyIndex` answers. -/
def keyDown (key : Keypad) : Option Key → Bool
  | some k => key[k]
  | none => false

/-- The numbers of the keys that are down, ascending: "scan keypad 0..15" (R172). -/
def keysDown (key : Keypad) : List Key := (List.finRange 16).filter (fun k => key[k])

/-- `Pick` (R172): one of the keys that are down, by `KEYWAIT_PICK`; none when no key is down. `free` is the free
choice of the policy `any`. -/
def pickKey (p : KeyPickPolicy) (free : Nat) : List Key → Option Key
  | [] => none
  | [k] => some k
  | k :: k' :: ks =>
    match p with
    | .any => (k :: k' :: ks)[free % (ks.length + 2)]?
    | .lowest => some k
    | .highest => (k :: k' :: ks).getLast?

/-! ## Sprites -/

/-- A cell of the screen: row and column. -/
abbrev Cell := Fin 32 × Fin 64

/-- The cell column `c` of sprite row `r` falls on, wrapped pixel by pixel (R161). -/
def spriteCell (x0 y0 : Byte) (r c : Nat) : Cell :=
  (⟨(y0.toNat + r) % 32, Nat.mod_lt _ (by decide)⟩, ⟨(x0.toNat + c) % 64, Nat.mod_lt _ (by decide)⟩)

/-- The cells the set bits of one sprite row fall on, bit 7 the leftmost column, columns ascending (R161). -/
def rowCells (x0 y0 : Byte) (r : Nat) (b : Byte) : List Cell :=
  ((List.range 8).filter (fun c => b.getLsbD (7 - c))).map (spriteCell x0 y0 r)

/-- The cells a sprite toggles, rows ascending from row `r` (R161). -/
def spriteCells (x0 y0 : Byte) (r : Nat) : List Byte → List Cell
  | [] => []
  | b :: bs => rowCells x0 y0 r b ++ spriteCells x0 y0 (r + 1) bs

/-- `Pix[py][px]`. -/
def Screen.get (p : Screen) (c : Cell) : Bool := p[c.1][c.2]

/-- `Pix[py][px] <- (off if it was on, on if it was off)`. -/
def Screen.toggle (p : Screen) (c : Cell) : Screen := p.set c.1 (p[c.1].set c.2 (!p[c.1][c.2]))

/-- One toggle of `Dxyn`, with the collision so far: a pixel that was on collides (R161). -/
def plot (acc : Screen × Bool) (c : Cell) : Screen × Bool :=
  (Screen.toggle acc.1 c, acc.2 || Screen.get acc.1 c)

/-- The screen after a sprite's toggles, and whether any toggled pixel was on (R161). -/
def drawCells (p : Screen) (cells : List Cell) : Screen × Bool := cells.foldl plot (p, false)

/-- The screen with every pixel off (R160). -/
def Screen.clear : Screen := Vector.replicate 32 (Vector.replicate 64 false)

end Sys2Proof.Machine
end

