-- ==== Sys2Proof/Machine/Alu.lean ====
section
/-! DEFINITION. Register loads and the ALU (42_load_alu.md R120 to R134). Every operation reads its operands before it writes; one that writes VF writes it last (R132). -/

namespace Sys2Proof.Machine

/-- `6xkk` LD Vx, kk (R120). -/
def execLdImm (x : Reg) (kk : Byte) (s : State) : Host.Outcome State Fault Refusal := .next (s.setV x kk)

/-- `7xkk` ADD Vx, kk: no flag (R121). -/
def execAddImm (x : Reg) (kk : Byte) (s : State) : Host.Outcome State Fault Refusal :=
  .next (s.setV x (s.getV x + kk))

/-- `8xy0` LD Vx, Vy (R122). -/
def execLdReg (x y : Reg) (s : State) : Host.Outcome State Fault Refusal := .next (s.setV x (s.getV y))

/-- `8xy1` OR Vx, Vy: no flag (R123, R133). -/
def execOrReg (x y : Reg) (s : State) : Host.Outcome State Fault Refusal :=
  .next (s.setV x (s.getV x ||| s.getV y))

/-- `8xy2` AND Vx, Vy: no flag (R124, R133). -/
def execAndReg (x y : Reg) (s : State) : Host.Outcome State Fault Refusal :=
  .next (s.setV x (s.getV x &&& s.getV y))

/-- `8xy3` XOR Vx, Vy: no flag (R125, R133). -/
def execXorReg (x y : Reg) (s : State) : Host.Outcome State Fault Refusal :=
  .next (s.setV x (s.getV x ^^^ s.getV y))

/-- `8xy4` ADD Vx, Vy, VF = carry (R126). -/
def execAddReg (x y : Reg) (s : State) : Host.Outcome State Fault Refusal :=
  .next (s.setVFlag x (s.getV x + s.getV y) (carryOut (s.getV x) (s.getV y)))

/-- `8xy5` SUB Vx, Vy, VF = not borrow (R127). -/
def execSubReg (x y : Reg) (s : State) : Host.Outcome State Fault Refusal :=
  .next (s.setVFlag x (s.getV x - s.getV y) (notBorrow (s.getV x) (s.getV y)))

/-- `8xy6` SHR Vx, VF = the bit shifted out; y is not read (R128). -/
def execShr (x _y : Reg) (s : State) : Host.Outcome State Fault Refusal :=
  .next (s.setVFlag x (s.getV x >>> 1) (shiftedOutLow (s.getV x)))

/-- `8xy7` SUBN Vx, Vy, VF = not borrow (R129). -/
def execSubn (x y : Reg) (s : State) : Host.Outcome State Fault Refusal :=
  .next (s.setVFlag x (s.getV y - s.getV x) (notBorrow (s.getV y) (s.getV x)))

/-- `8xyE` SHL Vx, VF = the bit shifted out; y is not read (R130). -/
def execShl (x _y : Reg) (s : State) : Host.Outcome State Fault Refusal :=
  .next (s.setVFlag x (s.getV x <<< 1) (shiftedOutHigh (s.getV x)))

/-- `Cxkk` RND Vx, kk: one byte is drawn from the random source (R131). -/
def execRnd (x : Reg) (kk : Byte) (s : State) : Host.Outcome State Fault Refusal :=
  .next (s.afterDraw.setV x (s.randomByte &&& kk))

end Sys2Proof.Machine
end

