-- ==== Sys2Proof/Machine/Control.lean ====
section
/-! DEFINITION. Control flow: RET, JP, CALL, the register skips and JP V0 (41_control_flow.md R100 to R108). In each, `s.pc` is already A + 2 (R82). -/

namespace Sys2Proof.Machine

/-- `00EE` RET (R100). -/
def execRet (s : State) : Host.Outcome State Fault Refusal := .next s.popReturn

/-- `1nnn` JP nnn (R101). -/
def execJp (nnn : Addr12) (s : State) : Host.Outcome State Fault Refusal := .next (s.setPc (zext nnn))

/-- `2nnn` CALL nnn (R102). -/
def execCall (nnn : Addr12) (s : State) : Host.Outcome State Fault Refusal := .next (s.callTo (zext nnn))

/-- `3xkk` SE Vx, kk (R103). -/
def execSeImm (x : Reg) (kk : Byte) (s : State) : Host.Outcome State Fault Refusal :=
  .next (s.skipIf (s.getV x = kk))

/-- `4xkk` SNE Vx, kk (R104). -/
def execSneImm (x : Reg) (kk : Byte) (s : State) : Host.Outcome State Fault Refusal :=
  .next (s.skipIf (s.getV x ≠ kk))

/-- `5xyn` SE Vx, Vy; n is not examined (R105, R70). -/
def execSeReg (x y : Reg) (_n : Nibble) (s : State) : Host.Outcome State Fault Refusal :=
  .next (s.skipIf (s.getV x = s.getV y))

/-- `9xyn` SNE Vx, Vy; n is not examined (R106, R70). -/
def execSneReg (x y : Reg) (_n : Nibble) (s : State) : Host.Outcome State Fault Refusal :=
  .next (s.skipIf (s.getV x ≠ s.getV y))

/-- `Bnnn` JP V0, nnn (R107). -/
def execJpV0 (nnn : Addr12) (s : State) : Host.Outcome State Fault Refusal :=
  .next (s.setPc (offsetTarget nnn (s.getV 0)))

end Sys2Proof.Machine
end

