-- ==== Sys2Proof/Machine/Display.lean ====
section
/-! DEFINITION. The display operations (44_display.md R160 to R164). -/

namespace Sys2Proof.Machine

/-- `00E0` CLS (R160). -/
def execCls (s : State) : Host.Outcome State Fault Refusal := .next (s.setPix Screen.clear)

/-- `Dxyn` DRW Vx, Vy, n (R161): V[x] and V[y] are read, the n row addresses checked, and only then VF and the screen
written. -/
def execDrw (x y : Reg) (n : Nibble) (s : State) : Host.Outcome State Fault Refusal :=
  match s.loadBytes .read s.I.toNat n.val with
  | .error f => .fault f
  | .ok rows =>
    let drawn := drawCells s.pix (spriteCells (s.getV x) (s.getV y) 0 rows)
    .next ((s.setPix drawn.1).setV VF (flagByte drawn.2))

end Sys2Proof.Machine
end

