-- ==== Sys2Proof/Machine/Index.lean ====
section
/-! DEFINITION. The index register and the memory operations (43_index_memory.md R140 to R147). A memory operand is at I + k, the sum unbounded (R146); I is never changed by an access. -/

namespace Sys2Proof.Machine

/-- `Annn` LD I, nnn (R140). -/
def execLdI (nnn : Addr12) (s : State) : Host.Outcome State Fault Refusal := .next (s.setI (zext nnn))

/-- `Fx1E` ADD I, Vx: no flag (R141). -/
def execAddI (x : Reg) (s : State) : Host.Outcome State Fault Refusal := .next (s.setI (indexSum s.I (s.getV x)))

/-- `Fx29` LD F, Vx (R142). -/
def execLdF (x : Reg) (s : State) : Host.Outcome State Fault Refusal := .next (s.setI (glyphAddr (s.getV x)))

/-- `Fx33` LD B, Vx (R143). -/
def execLdB (x : Reg) (s : State) : Host.Outcome State Fault Refusal :=
  outcome (s.storeBytes s.I.toNat (bcdDigits (s.getV x)))

/-- `Fx55` LD [I], Vx (R144). -/
def execStoreRegs (x : Reg) (s : State) : Host.Outcome State Fault Refusal :=
  outcome (s.storeBytes s.I.toNat (s.regsUpTo x))

/-- `Fx65` LD Vx, [I] (R145). -/
def execLoadRegs (x : Reg) (s : State) : Host.Outcome State Fault Refusal :=
  match s.loadBytes .read s.I.toNat (x.val + 1) with
  | .error f => .fault f
  | .ok bs => .next { s with V := setRegsFrom s.V 0 bs }

end Sys2Proof.Machine
end

