-- ==== Sys2Proof/Machine/Keypad.lean ====
section
/-! DEFINITION. The keypad and timer operations (45_keypad_timers.md R170 to R177). `s.key` is this step's snapshot (R90); the tick that follows every operation is `State.tick` (R176). -/

namespace Sys2Proof.Machine

open Sys2Proof.Config

/-- `Ex9E` SKP Vx (R170). -/
def execSkp (x : Reg) (s : State) : Host.Outcome State Fault Refusal :=
  match keyIndex s.params.keyIndex (s.getV x) with
  | .error f => .fault f
  | .ok k => .next (s.skipIf (keyDown s.key k))

/-- `ExA1` SKNP Vx (R171). -/
def execSknp (x : Reg) (s : State) : Host.Outcome State Fault Refusal :=
  match keyIndex s.params.keyIndex (s.getV x) with
  | .error f => .fault f
  | .ok k => .next (s.skipIf (!keyDown s.key k))

/-- `Fx0A` LD Vx, K (R172): a key that is down is reported; with none down the pc goes back, so that the instruction
runs again at the next step. -/
def execLdVxK (x : Reg) (s : State) : Host.Outcome State Fault Refusal :=
  match pickKey s.params.keyPick (freeKeyPick s.fresh) (keysDown s.key) with
  | some k => .next (s.setV x (BitVec.ofNat 8 k.val))
  | none => .next (s.setPc (s.pc - 2))

/-- `Fx07` LD Vx, DT (R173). -/
def execLdVxDT (x : Reg) (s : State) : Host.Outcome State Fault Refusal := .next (s.setV x s.DT)

/-- `Fx15` LD DT, Vx (R174). -/
def execLdDTVx (x : Reg) (s : State) : Host.Outcome State Fault Refusal := .next (s.setDT (s.getV x))

/-- `Fx18` LD ST, Vx (R175). -/
def execLdSTVx (x : Reg) (s : State) : Host.Outcome State Fault Refusal := .next (s.setST (s.getV x))

end Sys2Proof.Machine
end

