-- ==== Sys2Proof/Machine/Unknown.lean ====
section
/-! DEFINITION. The UNKNOWN fallback (40_step_cycle.md R88, 60_exceptions.md R191). -/

namespace Sys2Proof.Machine

/-- UNKNOWN (R88): the opcode is reported; nothing else happens in the execute phase. -/
def execUnknown (w : Word) (s : State) : Host.Outcome State Fault Refusal := .next (s.report (.unknownOpcode w))

end Sys2Proof.Machine
end

