-- ==== Sys2Proof/Machine/Step.lean ====
section
/-! DEFINITION. The one transition of the core (40_step_cycle.md R80), and how the host places an instruction where the next step fetches it. -/

namespace Sys2Proof.Machine

/-- One fetch-decode-execute cycle (R80): fetch, latch and advance, sample the keypad, execute, tick. A fault ends the
step with no successor state (R196). -/
def step (s : State) : Host.Outcome State Fault Refusal :=
  match s.fetch with
  | .error f => .fault f
  | .ok w =>
    match exec (decodeWord w) (s.beginStep w) with
    | .next t => .next t.tick
    | .fault f => .fault f
    | .refused r => .refused r

/-- `s` with the bytes of a table word at pc and pc + 1, where the next step fetches. Nothing but memory changes; where
the policy lets the pc reach no cell, nothing does (log 29). -/
def State.withFetchWord (s : State) (nbits w : Nat) : State :=
  match effAddrs s.params.oob .fetch s.pc.toNat 2 with
  | .ok es => s.putBytes (es.zip (tableBytes nbits w))
  | .error _ => s

end Sys2Proof.Machine
end

