-- ==== Sys2Proof/Machine/Lifecycle.lean ====
section
/-! DEFINITION. What the outside does to the Machine and sees of it, between steps: the loader (70_reset_and_hazards.md R223, R224), the order of a run (R225, R229), the display's and the debugger's view (10_state.md R23, R27; 60_exceptions.md R206). -/

namespace Sys2Proof.Machine

open Sys2Proof.Config

/-- The error the core signals for a load (R194). `RomNotFound` and `IoError` arise in the Loader before the core is
handed any byte (R195), so the core has no transition that raises them. -/
inductive LoadError where
  /-- The ROM is longer than 3584 bytes. -/
  | romTooLarge
deriving DecidableEq, Repr

/-- The cells a ROM is copied to: byte i at 0x200 + i (R223). -/
def romCells (a : Nat) : List Byte → List (Nat × Byte)
  | [] => []
  | b :: bs => (a, b) :: romCells (a + 1) bs

/-- `load(bytes, len)` (R223): the Machine after it, and the `load_error` it signals. The length is checked before any
byte is copied, so that a load that fails leaves the Machine as it was (R194; 10_state.md R32). -/
def State.load (s : State) (bytes : List Byte) : State × Option LoadError :=
  if bytes.length > romMax then (s, some .romTooLarge)
  else (s.putBytes (romCells progBase bytes), none)

/-- The events the outside sends the core (R27, R229). -/
inductive HostEvent where
  /-- Build the Machine, at given parameters (R220). -/
  | construct (p : Params)
  /-- Load a ROM image (R223). -/
  | load (bytes : List Byte)
  /-- One fetch-decode-execute cycle (R80). -/
  | step
  /-- The Input Adapter writes the keypad, between steps (R24). -/
  | keys (k : Keypad)
  /-- A byte is injected into the random source (R28). -/
  | random (b : Byte)
deriving DecidableEq, Repr

/-- Where a run stands (R225). -/
inductive Life where
  /-- Nothing has been constructed. -/
  | absent
  /-- Constructed, nothing loaded. -/
  | built (s : State)
  /-- Loaded: steps may come. -/
  | running (s : State)
  /-- The load failed: the Machine as the load left it, with the error signalled; the run does not start (R194, R32). -/
  | failed (s : State) (e : LoadError)
  /-- A step had no successor state: nothing continues from it (R196). -/
  | faulted (f : Fault)
deriving DecidableEq, Repr

/-- The Machine there is to look at, between events (R26, R229): none before construction (R225), and none after a fault,
which leaves no successor state (R196). -/
def Life.machine : Life → Option State
  | .built s | .running s | .failed s _ => some s
  | .absent | .faulted _ => none

/-- The lifecycle (R225, R229): `none` where the source describes no such event ("a model gives these no
transition"): a second construct or load, a step before a load that succeeded, anything after a failure. -/
def Life.apply : Life → HostEvent → Option Life
  | .absent, .construct p => some (.built (State.construct p))
  | .built s, .load bytes =>
    match s.load bytes with
    | (t, none) => some (.running t)
    | (t, some e) => some (.failed t e)
  | .built s, .keys k => some (.built { s with key := k })
  | .built s, .random b => some (.built { s with rndIn := s.rndIn ++ [b] })
  | .running s, .step =>
    match step s with
    | .next t => some (.running t)
    | .fault f => some (.faulted f)
    | .refused _ => none
  | .running s, .keys k => some (.running { s with key := k })
  | .running s, .random b => some (.running { s with rndIn := s.rndIn ++ [b] })
  | _, _ => none

/-- `pix_out` (R27): the framebuffer, each pixel on or off. -/
def State.pixOut (s : State) : List (List Bool) := s.pix.toList.map Vector.toList

/-- The word a pixel holds in the framebuffer, for any lit word `PIXEL_ON` (R23, R162). -/
def State.pixWord {w : Nat} (s : State) (on : PixelOn w) (c : Cell) : BitVec w :=
  if Screen.get s.pix c then on.val else 0

/-- `dbg_view` (R27, R206): what the Debug Adapter reads, the eleven items of R10. -/
structure DebugView where
  pc : Word
  I : Word
  sp : Nat
  V : List Byte
  memory : List Byte
  stack : List Word
  opcode : Word
  DT : Byte
  ST : Byte
  pix : List (List Bool)
  key : List Bool
deriving DecidableEq, Repr

/-- The read-only view of every item of R10 (R27, R206). -/
def State.dbgView (s : State) : DebugView where
  pc := s.pc
  I := s.I
  sp := s.sp.val
  V := s.V.toList
  memory := (List.range memSize).map s.byteAt
  stack := s.stack.toList
  opcode := s.opcode
  DT := s.DT
  ST := s.ST
  pix := s.pixOut
  key := s.key.toList

end Sys2Proof.Machine
end

