-- ==== Sys2Proof/Safety.lean ====
section
/-! DEFINITION. The terms claims are stated in: what an instruction may write (10_state.md R30), what it leaves alone, the invariant of memory, the runs the lifecycle allows (70_reset_and_hazards.md R225). -/

namespace Sys2Proof.Machine

open Sys2Proof.Config

/-- The cells an access of `n` bytes at I reaches: I, I + 1, ..., the sum unbounded, each reduced modulo 4096 (the
identity below 4096; R43, R146). -/
def State.cellsAtI (s : State) (n : Nat) : List Nat := (List.range n).map (fun k => (s.I.toNat + k) % memSize)

/-- An access of `n` bytes at `a` raises no fault: the policy wraps, or every address is below 4096 (R42). -/
def State.reaches (s : State) (a n : Nat) : Prop := s.params.oob = .wrap12 ∨ n = 0 ∨ a + n ≤ memSize

/-- What an operation may write, one entry per column of R30; `cells` are the cells of memory. -/
structure Writes where
  regs : List Reg := []
  cells : List Nat := []
  I : Bool := false
  pc : Bool := false
  stack : Bool := false
  sp : Bool := false
  DT : Bool := false
  ST : Bool := false
  pix : Bool := false
  event : Bool := false
  rndIn : Bool := false

/-- `t` differs from `s` in nothing but what `w` allows: every other register, every other byte of memory, every other
item, input and output is as before. -/
structure Frame (w : Writes) (s t : State) : Prop where
  regs : ∀ r : Reg, r ∉ w.regs → t.V[r] = s.V[r]
  cells : ∀ a : Nat, a ∉ w.cells → t.byteAt a = s.byteAt a
  I : w.I = false → t.I = s.I
  pc : w.pc = false → t.pc = s.pc
  stack : w.stack = false → t.stack = s.stack
  sp : w.sp = false → t.sp = s.sp
  DT : w.DT = false → t.DT = s.DT
  ST : w.ST = false → t.ST = s.ST
  pix : w.pix = false → t.pix = s.pix
  event : w.event = false → t.event = s.event
  rndIn : w.rndIn = false → t.rndIn = s.rndIn
  key : t.key = s.key
  opcode : t.opcode = s.opcode
  keyIn : t.keyIn = s.keyIn
  toneReq : t.toneReq = s.toneReq
  fresh : t.fresh = s.fresh
  params : t.params = s.params

/-- The write columns of the table of R30, besides the fetch and the tick of every step. -/
def writesOf (s : State) : Instr → Writes
  | .cls => { pix := true }
  | .ret => { pc := true, sp := true, event := true }
  | .jp _ => { pc := true }
  | .call _ => { pc := true, stack := true, sp := true, event := true }
  | .seImm _ _ => { pc := true }
  | .sneImm _ _ => { pc := true }
  | .seReg _ _ _ => { pc := true }
  | .ldImm x _ => { regs := [x] }
  | .addImm x _ => { regs := [x] }
  | .ldReg x _ => { regs := [x] }
  | .orReg x _ => { regs := [x] }
  | .andReg x _ => { regs := [x] }
  | .xorReg x _ => { regs := [x] }
  | .addReg x _ => { regs := [x, VF] }
  | .subReg x _ => { regs := [x, VF] }
  | .shr x _ => { regs := [x, VF] }
  | .subn x _ => { regs := [x, VF] }
  | .shl x _ => { regs := [x, VF] }
  | .sneReg _ _ _ => { pc := true }
  | .ldI _ => { I := true }
  | .jpV0 _ => { pc := true }
  | .rnd x _ => { regs := [x], rndIn := true }
  | .drw _ _ _ => { regs := [VF], pix := true }
  | .skp _ => { pc := true }
  | .sknp _ => { pc := true }
  | .ldVxDT x => { regs := [x] }
  | .ldVxK x => { regs := [x], pc := true }
  | .ldDTVx _ => { DT := true }
  | .ldSTVx _ => { ST := true }
  | .addI _ => { I := true }
  | .ldF _ => { I := true }
  | .ldB _ => { cells := s.cellsAtI 3 }
  | .storeRegs x => { cells := s.cellsAtI (x.val + 1) }
  | .loadRegs x => { regs := (List.finRange 16).filter (fun k => k ≤ x) }
  | .unknown _ => { event := true }

/-- The invariant of a run: memory is in its canonical form, so no cell outside 0 to 4095 exists (R42) and equal
memories are equal data. -/
def State.Inv (s : State) : Prop := Memory.wf s.params.font s.mem

/-- The lives the outside can bring about from nothing, by any events in any order (R225, R229). -/
inductive Life.Reachable : Life → Prop where
  | start : Life.Reachable .absent
  | after (l l' : Life) (e : HostEvent) : Life.Reachable l → Life.apply l e = some l' → Life.Reachable l'

end Sys2Proof.Machine
end

