-- ==== Sys2Proof/Certificates/Slice0/Obligations.lean ====
section
/-! DEFINITION. The statements for the provers. Each docstring names the rule of spec/ it formalises; where a clause is the spec's own decision or the model's choice, it names the log entry. -/

open Sys2Proof Sys2Proof.Machine Sys2Proof.Config

/-! ## Encoding -/

/-- R60, R61, R64 to R71: an instruction's two bytes, followed by any bytes, decode to that instruction and leave the
bytes after it. Every operand takes every value its field admits; an UNKNOWN takes every word of R71. -/
def Obligations.DecodeInvertsEncode : Prop :=
  ∀ (i : Instr) (rest : List Byte), wellFormed i = true → decode (encode i ++ rest) = .ok (i, rest)

/-- R64: decode is total; every opcode is the encoding of the well-formed instruction it decodes to, so no bit of an
opcode is dropped. -/
def Obligations.EncodeInvertsDecode : Prop :=
  ∀ w : Word, wellFormed (decodeWord w) = true ∧ encodeWord (decodeWord w) = w

/-- R65: the rows of the opcode map an opcode selects by mask and match are exactly the row of the operation the
procedure of R64 gives it, and none when it is UNKNOWN; so no opcode selects two rows. -/
def Obligations.DecodeFollowsOpcodeMap : Prop :=
  ∀ w : Word, opcodeMap.filter (selects w) = (rowOf (decodeWord w)).toList

/-- R66 to R71: an opcode is UNKNOWN exactly in the four families and cases of R71's table. That families 0, E and F
match exactly is the spec's D8 (log 15), that the sub-opcodes of family 8 are 0 to 7 and E its D27 (log 25). -/
def Obligations.UnknownEncodingsByFamily : Prop :=
  ∀ w : Word, decodeWord w = .unknown w ↔
    (w.toNat / 4096 = 0x0 ∧ w.toNat ≠ 0x00E0 ∧ w.toNat ≠ 0x00EE) ∨
    (w.toNat / 4096 = 0x8 ∧ ((0x8 ≤ w.toNat % 16 ∧ w.toNat % 16 ≤ 0xD) ∨ w.toNat % 16 = 0xF)) ∨
    (w.toNat / 4096 = 0xE ∧ w.toNat % 256 ≠ 0x9E ∧ w.toNat % 256 ≠ 0xA1) ∨
    (w.toNat / 4096 = 0xF ∧ w.toNat % 256 ∉ [0x07, 0x0A, 0x15, 0x18, 0x1E, 0x29, 0x33, 0x55, 0x65])

/-- R65: a few words written out from the map's patterns decode to the instruction they stand for. That sub-opcode 7 of
family 8 is SUBN is PRESUMED by the spec (its D27, log 25). -/
def Obligations.SampleWordsDecode : Prop :=
  decodeWord 0x00EE = .ret ∧ decodeWord 0x1ABC = .jp 0xABC ∧ decodeWord 0x3A44 = .seImm 0xA 0x44 ∧
  decodeWord 0x8127 = .subn 1 2 ∧ decodeWord 0xB300 = .jpV0 0x300 ∧ decodeWord 0xD125 = .drw 1 2 5 ∧
  decodeWord 0xE3A1 = .sknp 3 ∧ decodeWord 0xF465 = .loadRegs 4 ∧ decodeWord 0x0123 = .unknown 0x0123

/-! ## The step -/

/-- R80, R81, R82, R84: when the bytes at pc and pc + 1 decode to `i`, the step is the execute phase of `i` on the
state with `opcode` latched, pc advanced by 2 modulo 65536, this step's keypad snapshot taken and no event reported,
followed by the two timer ticks; a fault of the fetch or of the execute phase ends the step. The tone request is that of
R87 (stated in ToneRequestOfTheStep). The model's own forms in it: the input `key_in` as `keyIn`, held where that is empty
(log 8), the event cleared at the start (log 11), the counter `fresh` (log 12); that every step latches and ticks is the
spec's D23 and D29 (log 22). -/
def Obligations.StepRunsFetchedInstruction : Prop :=
  ∀ s : State,
    (∀ (b : State) (i : Instr) (hi lo : Byte), s.reaches s.pc.toNat 2 →
      hi = s.byteAt (s.pc.toNat % 4096) → lo = s.byteAt ((s.pc.toNat + 1) % 4096) → decode [hi, lo] = .ok (i, []) →
      b = { s with
            opcode := BitVec.ofNat 16 (hi.toNat * 256 + lo.toNat), pc := BitVec.ofNat 16 (s.pc.toNat + 2)
            key := s.keyIn.headD s.key, keyIn := s.keyIn.tail, event := none } →
      step s =
        match exec i b with
        | .next t => .next { t with
            DT := if t.DT = 0 then 0 else t.DT - 1, ST := if t.ST = 0 then 0 else t.ST - 1
            toneReq := toneOf t.params.tone (freeTone t.fresh) t.ST, fresh := t.fresh + 1 }
        | .fault f => .fault f
        | .refused r => .refused r) ∧
    (¬ s.reaches s.pc.toNat 2 → ∃ f : Fault, s.fetch = .error f ∧ step s = .fault f)

/-- R42, R43, R232 under the spec's parameter OOB_POLICY = fault (D2, log 2): a fetch that presents an address of 4096
or more has no successor state, and the address reported is the first one out of range, pc first. -/
def Obligations.FetchBeyondMemoryFaults : Prop :=
  ∀ s : State, s.params.oob = .fault → 4095 ≤ s.pc.toNat →
    step s = .fault (.addressOutOfRange (max s.pc.toNat 4096) .fetch)

/-- R50: two bytes stored at pc and pc + 1 are what the next step fetches and executes, whatever stood there before: that
step is the execute phase of the operation the word they form decodes to, with the tick after it, and `opcode` then holds
the word. -/
def Obligations.StoredBytesAreFetched : Prop :=
  ∀ (s p : State) (hi lo : Byte) (w : Word), s.pc.toNat + 1 < 4096 → w.toNat = hi.toNat * 256 + lo.toNat →
    p = (s.putByte s.pc.toNat hi).putByte (s.pc.toNat + 1) lo →
    (∀ u : State, exec (decodeWord w) (p.beginStep w) = .next u → step p = .next u.tick) ∧
    (∀ e : Fault, exec (decodeWord w) (p.beginStep w) = .fault e → step p = .fault e) ∧
    (∀ t : State, step p = .next t → t.opcode = w)

/-- R85: the pc after every step, by operation, with A the pc before it; the sums are modulo 65536. The keypad is the
step's snapshot, which the state after the step holds. That `5xyn` and `9xyn` with n not 0 are skips is the spec's D7 (log
14). -/
def Obligations.PcAfterEachOperation : Prop :=
  ∀ s t : State, step s = .next t →
    let skip (c : Prop) [Decidable c] : Nat := if c then (s.pc.toNat + 4) % 65536 else (s.pc.toNat + 2) % 65536
    let down (v : Byte) : Bool := (List.finRange 16).any (fun k => keyIndex s.params.keyIndex v = .ok (some k) && t.key[k])
    t.pc.toNat =
      match decodeWord t.opcode with
      | .jp nnn => nnn.toNat
      | .call nnn => if s.sp.val < 16 then nnn.toNat else (s.pc.toNat + 2) % 65536
      | .ret => if h : 0 < s.sp.val then (s.stack[s.sp.val - 1]).toNat else (s.pc.toNat + 2) % 65536
      | .jpV0 nnn => (nnn.toNat + s.V[0].toNat) % 65536
      | .seImm x kk => skip (s.V[x] = kk)
      | .sneImm x kk => skip (s.V[x] ≠ kk)
      | .seReg x y _ => skip (s.V[x] = s.V[y])
      | .sneReg x y _ => skip (s.V[x] ≠ s.V[y])
      | .skp x => skip (down s.V[x] = true)
      | .sknp x => skip (down s.V[x] = false)
      | .ldVxK _ => if (List.finRange 16).any (fun k => t.key[k]) then (s.pc.toNat + 2) % 65536 else s.pc.toNat
      | _ => (s.pc.toNat + 2) % 65536

/-- R86, R176, D23 (log 22): every step ends with each timer one lower than the operation left it, and never below 0;
only `Fx15` and `Fx18` put another value in a timer, and the tick of the same step counts that value down. -/
def Obligations.EveryStepTicksTheTimers : Prop :=
  ∀ s t : State, step s = .next t →
    t.DT.toNat = (match decodeWord t.opcode with | .ldDTVx x => s.V[x].toNat | _ => s.DT.toNat) - 1 ∧
    t.ST.toNat = (match decodeWord t.opcode with | .ldSTVx x => s.V[x].toNat | _ => s.ST.toNat) - 1

/-- R87 (TONE_POLICY: D6, log 5), with `n` the value of ST the tick finds: no request at 0, a request at 1, and at 2 or
more a request under `every_nonzero` and none under `last_only`. Under `at_least_last` it is a free value and nothing
is stated. -/
def Obligations.ToneRequestOfTheStep : Prop :=
  ∀ (s t : State) (n : Nat), step s = .next t →
    n = (match decodeWord t.opcode with | .ldSTVx x => s.V[x].toNat | _ => s.ST.toNat) →
    (n = 0 → t.toneReq = false) ∧ (n = 1 → t.toneReq = true) ∧
    (2 ≤ n → s.params.tone = .everyNonzero → t.toneReq = true) ∧
    (2 ≤ n → s.params.tone = .lastOnly → t.toneReq = false)

/-- R176: over k steps none of which executes `Fx15`, the delay timer goes down by k and stops at 0. That a step which
executes UNKNOWN or a waiting `Fx0A` counts like any other is the spec's D23 (log 22). -/
def Obligations.DelayTimerCountsSteps : Prop :=
  ∀ (k : Nat) (s t : State), core.run k s = .next t →
    (∀ (j : Nat) (u v : State) (x : Reg), j < k → core.run j s = .next u → step u = .next v →
      decodeWord v.opcode ≠ .ldDTVx x) →
    t.DT.toNat = s.DT.toNat - k

/-- R196: under `wrap12` and a KEY_INDEX_POLICY other than fault "the faults cannot occur and every step has a
successor": from any state, any number of steps completes. -/
def Obligations.EveryRunIsLiveUnderTotalPolicies : Prop :=
  ∀ (k : Nat) (s : State), s.params.oob = .wrap12 → s.params.keyIndex ≠ .fault →
    ∃ t : State, core.run k s = .next t

/-- R190, R196, R198: the only faults of a step are the two of R190, each only under its policy and only for an
address of 4096 or more or a key number above 15; and no step is refused. -/
def Obligations.OnlyTwoFaultsAndNoRefusal : Prop :=
  ∀ s : State, (∀ r : Refusal, step s ≠ .refused r) ∧
    ∀ f : Fault, step s = .fault f →
      (∃ (a : Nat) (k : AccessKind), f = .addressOutOfRange a k ∧ 4096 ≤ a ∧ s.params.oob = .fault) ∨
      (∃ v : Byte, f = .keyIndexOutOfRange v ∧ 15 < v.toNat ∧ s.params.keyIndex = .fault)

/-- R90, R93: an operation other than `Ex9E`, `ExA1`, `Fx0A` does not depend on the keypad: with another snapshot it
does the same, and leaves that snapshot where it was. -/
def Obligations.KeypadReadByThreeOperations : Prop :=
  ∀ (i : Instr) (s : State) (k : Keypad), (∀ x : Reg, i ≠ .skp x ∧ i ≠ .sknp x ∧ i ≠ .ldVxK x) →
    exec i { s with key := k } =
      match exec i s with
      | .next t => .next { t with key := k }
      | .fault f => .fault f
      | .refused r => .refused r

/-- R20, R29, R87: the `opcode` register and the outputs are read by no rule: a step from a state that differs in
nothing else gives the same outcome. -/
def Obligations.OpcodeAndOutputsAreNeverRead : Prop :=
  ∀ (s : State) (w : Word) (tone : Bool) (e : Option Event),
    step { s with opcode := w, toneReq := tone, event := e } = step s

/-- R24, R26, R83, R90: a step writes the keypad only with the Input Adapter's next snapshot, latches the word it
fetched, and writes no parameter. `keyIn` is the model's form of the input `key_in` (log 8). -/
def Obligations.StepTakesOneKeypadSnapshot : Prop :=
  ∀ s t : State, step s = .next t →
    t.key = s.keyIn.headD s.key ∧ t.keyIn = s.keyIn.tail ∧ t.params = s.params ∧
    t.opcode.toNat = (s.byteAt (s.pc.toNat % 4096)).toNat * 256 + (s.byteAt ((s.pc.toNat + 1) % 4096)).toNat

/-! ## Whole-machine rules -/

/-- The canonical form of memory (log 28), with R42's "no cell outside mem[0..4095] exists", is kept by every step
from every state that has it. -/
def Obligations.StepKeepsMemoryCanonical : Prop :=
  ∀ s t : State, s.Inv → step s = .next t → t.Inv

/-- The memory of the Machine as constructed, at any parameters, has the canonical form, which is the model's own
representation of memory (log 28, DESIGN CHOICE). -/
def Obligations.ConstructionIsCanonical : Prop :=
  ∀ p : Params, (State.construct p).Inv ∧ State.reset.Inv

/-- Every event of the outside, from any life whose Machine has its memory in the canonical form (the model's own
representation, log 28), leads to a life whose Machine has it; so every Machine the outside can bring about, by
construction, a load, keypad and random input and steps in any order the lifecycle allows (the spec's D21, log 27), has
it. -/
def Obligations.LifecycleKeepsMemoryCanonical : Prop :=
  (∀ (l l' : Life) (e : HostEvent), (∀ s : State, l.machine = some s → s.Inv) → Life.apply l e = some l' →
    ∀ s : State, l'.machine = some s → s.Inv) ∧
  ∀ (l : Life) (s : State), l.Reachable → l.machine = some s → s.Inv

/-- R30, write columns: an operation that completes changes nothing but what R30 lists for it. Every register, every
byte of memory and every other item it does not list is unchanged; RET writes sp and no stack entry, CALL both. That
`Fx55` and `Fx65` leave I is the spec's D15 (log 20), that `8xy0` to `8xy3` leave VF its D16 (log 21), that RET keeps the
popped entry the inference of R17 (log 31). The event of UNKNOWN, CALL and RET is the model's record (log 11), the injected
bytes its form of the random input (log 7). -/
def Obligations.OperationsWriteWhatTheMatrixLists : Prop :=
  ∀ (i : Instr) (s t : State), exec i s = .next t → Frame (writesOf s i) s t

/-- R14: VF after every operation that completes. The six flag operations write it as R14's table says, and as 0 or 1
(that the flag stands when x is F is the spec's D9, log 16); an operation whose destination is V[x] leaves in VF what it
writes when x is F, and VF as it was when x is not F (for `8xy0` to `8xy3` the spec's D16, log 21; their operand roles its
G4, log 25); every other operation leaves VF alone. -/
def Obligations.FlagRegisterWriters : Prop :=
  ∀ (i : Instr) (s t : State), exec i s = .next t →
    match i with
    | .addReg x y => t.V[VF] = if 255 < s.V[x].toNat + s.V[y].toNat then 1 else 0
    | .subReg x y => t.V[VF] = if s.V[y].toNat ≤ s.V[x].toNat then 1 else 0
    | .shr x _ => t.V[VF].toNat = s.V[x].toNat % 2
    | .subn x y => t.V[VF] = if s.V[x].toNat ≤ s.V[y].toNat then 1 else 0
    | .shl x _ => t.V[VF].toNat = s.V[x].toNat / 128
    | .drw _ _ _ => t.V[VF] = if ∃ c : Cell, Screen.get s.pix c = true ∧ Screen.get t.pix c = false then 1 else 0
    | .ldImm x kk => t.V[VF] = if x = VF then kk else s.V[VF]
    | .addImm x kk => t.V[VF] = if x = VF then s.V[VF] + kk else s.V[VF]
    | .ldReg x y => t.V[VF] = if x = VF then s.V[y] else s.V[VF]
    | .orReg x y => t.V[VF] = if x = VF then s.V[VF] ||| s.V[y] else s.V[VF]
    | .andReg x y => t.V[VF] = if x = VF then s.V[VF] &&& s.V[y] else s.V[VF]
    | .xorReg x y => t.V[VF] = if x = VF then s.V[VF] ^^^ s.V[y] else s.V[VF]
    | .ldVxDT x => t.V[VF] = if x = VF then s.DT else s.V[VF]
    | .rnd x kk => (x = VF → ∃ r : Byte, t.V[VF] = r &&& kk) ∧ (x ≠ VF → t.V[VF] = s.V[VF])
    | .ldVxK x =>
      (x = VF → (∃ k : Key, s.key[k] = true) → ∃ k : Key, s.key[k] = true ∧ t.V[VF].toNat = k.val) ∧
      ((x ≠ VF ∨ ∀ k : Key, s.key[k] = false) → t.V[VF] = s.V[VF])
    | .loadRegs x => t.V[VF] = if x = VF then s.byteAt ((s.I.toNat + 15) % 4096) else s.V[VF]
    | _ => t.V[VF] = s.V[VF]

/-- R147, R164: a step changes a byte of memory only when it executes `Fx33` or `Fx55`, and a pixel only when it
executes `00E0` or `Dxyn`. -/
def Obligations.MemoryAndScreenWriters : Prop :=
  ∀ s t : State, step s = .next t →
    ((∃ a : Nat, t.byteAt a ≠ s.byteAt a) → ∃ x : Reg, decodeWord t.opcode = .ldB x ∨ decodeWord t.opcode = .storeRegs x) ∧
    (t.pix ≠ s.pix → decodeWord t.opcode = .cls ∨ ∃ (x y : Reg) (n : Nibble), decodeWord t.opcode = .drw x y n)

/-- R17, R18: a step moves sp up by one only by a CALL at sp < 16, down by one only by a RET at sp > 0, and changes no
stack entry but the one a CALL pushes, which takes A + 2. That RET keeps the popped entry is R17's inference (log 31). -/
def Obligations.StackMovesByCallAndRet : Prop :=
  ∀ s t : State, step s = .next t →
    t.sp.val = (match decodeWord t.opcode with
      | .call _ => if s.sp.val < 16 then s.sp.val + 1 else s.sp.val
      | .ret => s.sp.val - 1
      | _ => s.sp.val) ∧
    ∀ k : Fin 16, t.stack[k] =
      match decodeWord t.opcode with
      | .call _ => if k.val = s.sp.val then BitVec.ofNat 16 (s.pc.toNat + 2) else s.stack[k]
      | _ => s.stack[k]

/-! ## Control flow -/

/-- R100, R193: RET, with the already advanced pc in `s.pc`. That the silent StackUnderflow stands in `event` is the
model's record of it (log 11); that the popped entry is kept is the inference of R17 (log 31). -/
def Obligations.RetReturns : Prop :=
  ∀ s : State, decodeWord 0x00EE = .ret ∧
    ∃ t : State, exec .ret s = .next t ∧ t.stack = s.stack ∧
      (∀ h : 0 < s.sp.val, t.sp.val = s.sp.val - 1 ∧ t.pc = s.stack[s.sp.val - 1] ∧ t.event = s.event) ∧
      (s.sp.val = 0 → t.sp = s.sp ∧ t.pc = s.pc ∧ t.event = some .stackUnderflow) ∧
      Frame { pc := true, sp := true, event := true } s t

/-- R101: JP nnn. -/
def Obligations.JpJumps : Prop :=
  ∀ (nnn : Addr12) (s : State), decodeWord (BitVec.ofNat 16 (0x1000 + nnn.toNat)) = .jp nnn ∧
    ∃ t : State, exec (.jp nnn) s = .next t ∧ t.pc.toNat = nnn.toNat ∧ Frame { pc := true } s t

/-- R102, R192: CALL nnn, with the already advanced pc in `s.pc`. That the silent StackOverflow stands in `event` is the
model's record of it (log 11). -/
def Obligations.CallPushesAndJumps : Prop :=
  ∀ (nnn : Addr12) (s : State), decodeWord (BitVec.ofNat 16 (0x2000 + nnn.toNat)) = .call nnn ∧
    ∃ t : State, exec (.call nnn) s = .next t ∧
      (∀ h : s.sp.val < 16, t.stack[s.sp.val] = s.pc ∧ t.sp.val = s.sp.val + 1 ∧ t.pc.toNat = nnn.toNat ∧
        t.event = s.event ∧ ∀ k : Fin 16, k.val ≠ s.sp.val → t.stack[k] = s.stack[k]) ∧
      (s.sp.val = 16 → t.stack = s.stack ∧ t.sp = s.sp ∧ t.pc = s.pc ∧ t.event = some .stackOverflow) ∧
      Frame { pc := true, stack := true, sp := true, event := true } s t

/-- R102 and R100 together (the source's round trip, S5): a step that executes CALL nnn at A, then the step that
executes the RET at nnn, leave pc at A + 2 and sp as it was. -/
def Obligations.CallThenRetReturns : Prop :=
  ∀ (s : State) (nnn : Addr12), s.sp.val < 16 → s.reaches s.pc.toNat 2 → s.reaches nnn.toNat 2 →
    decodeWord (wordOfBytes (s.byteAt (s.pc.toNat % 4096)) (s.byteAt ((s.pc.toNat + 1) % 4096))) = .call nnn →
    decodeWord (wordOfBytes (s.byteAt nnn.toNat) (s.byteAt ((nnn.toNat + 1) % 4096))) = .ret →
    ∃ u t : State, step s = .next u ∧ step u = .next t ∧ u.pc.toNat = nnn.toNat ∧
      t.pc.toNat = (s.pc.toNat + 2) % 65536 ∧ t.sp = s.sp

/-- R103, R104, R108: SE Vx, kk and SNE Vx, kk. -/
def Obligations.ImmediateSkips : Prop :=
  ∀ (x : Reg) (kk : Byte) (s : State),
    (decodeWord (BitVec.ofNat 16 (0x3000 + x.val * 0x100 + kk.toNat)) = .seImm x kk ∧
     ∃ t : State, exec (.seImm x kk) s = .next t ∧ Frame { pc := true } s t ∧
       t.pc.toNat = if s.V[x].toNat = kk.toNat then (s.pc.toNat + 2) % 65536 else s.pc.toNat) ∧
    (decodeWord (BitVec.ofNat 16 (0x4000 + x.val * 0x100 + kk.toNat)) = .sneImm x kk ∧
     ∃ t : State, exec (.sneImm x kk) s = .next t ∧ Frame { pc := true } s t ∧
       t.pc.toNat = if s.V[x].toNat = kk.toNat then s.pc.toNat else (s.pc.toNat + 2) % 65536)

/-- R105, R106, R108: SE Vx, Vy and SNE Vx, Vy. That every value of n executes the skip is the spec's D7 (R70, log
14). -/
def Obligations.RegisterSkips : Prop :=
  ∀ (x y : Reg) (n : Nibble) (s : State),
    (decodeWord (BitVec.ofNat 16 (0x5000 + x.val * 0x100 + y.val * 0x10 + n.val)) = .seReg x y n ∧
     ∃ t : State, exec (.seReg x y n) s = .next t ∧ Frame { pc := true } s t ∧
       t.pc.toNat = if s.V[x].toNat = s.V[y].toNat then (s.pc.toNat + 2) % 65536 else s.pc.toNat) ∧
    (decodeWord (BitVec.ofNat 16 (0x9000 + x.val * 0x100 + y.val * 0x10 + n.val)) = .sneReg x y n ∧
     ∃ t : State, exec (.sneReg x y n) s = .next t ∧ Frame { pc := true } s t ∧
       t.pc.toNat = if s.V[x].toNat = s.V[y].toNat then s.pc.toNat else (s.pc.toNat + 2) % 65536)

/-- R107: JP V0, nnn. That the sum is not reduced to 12 bits is the spec's D3 (log 19). -/
def Obligations.JpV0Jumps : Prop :=
  ∀ (nnn : Addr12) (s : State), decodeWord (BitVec.ofNat 16 (0xB000 + nnn.toNat)) = .jpV0 nnn ∧
    ∃ t : State, exec (.jpV0 nnn) s = .next t ∧ t.pc.toNat = nnn.toNat + s.V[0].toNat ∧ Frame { pc := true } s t

/-! ## Loads and the ALU -/

/-- R120: LD Vx, kk. -/
def Obligations.LdImmLoads : Prop :=
  ∀ (x : Reg) (kk : Byte) (s : State),
    decodeWord (BitVec.ofNat 16 (0x6000 + x.val * 0x100 + kk.toNat)) = .ldImm x kk ∧
    ∃ t : State, exec (.ldImm x kk) s = .next t ∧ t.V[x] = kk ∧ Frame { regs := [x] } s t

/-- R121: ADD Vx, kk, modulo 256, no flag. -/
def Obligations.AddImmAdds : Prop :=
  ∀ (x : Reg) (kk : Byte) (s : State),
    decodeWord (BitVec.ofNat 16 (0x7000 + x.val * 0x100 + kk.toNat)) = .addImm x kk ∧
    ∃ t : State, exec (.addImm x kk) s = .next t ∧ t.V[x].toNat = (s.V[x].toNat + kk.toNat) % 256 ∧
      Frame { regs := [x] } s t

/-- R122 to R125, R133: LD, OR, AND, XOR Vx, Vy, bit by bit. The operand roles are the spec's G4 (log 25), that VF is
not written its D16 (log 21). -/
def Obligations.CopyAndBitwiseOperations : Prop :=
  ∀ (x y : Reg) (s : State),
    decodeWord (BitVec.ofNat 16 (0x8000 + x.val * 0x100 + y.val * 0x10)) = .ldReg x y ∧
    decodeWord (BitVec.ofNat 16 (0x8001 + x.val * 0x100 + y.val * 0x10)) = .orReg x y ∧
    decodeWord (BitVec.ofNat 16 (0x8002 + x.val * 0x100 + y.val * 0x10)) = .andReg x y ∧
    decodeWord (BitVec.ofNat 16 (0x8003 + x.val * 0x100 + y.val * 0x10)) = .xorReg x y ∧
    (∃ t : State, exec (.ldReg x y) s = .next t ∧ t.V[x] = s.V[y] ∧ Frame { regs := [x] } s t) ∧
    (∃ t : State, exec (.orReg x y) s = .next t ∧ Frame { regs := [x] } s t ∧
      ∀ k : Nat, k < 8 → t.V[x].getLsbD k = (s.V[x].getLsbD k || s.V[y].getLsbD k)) ∧
    (∃ t : State, exec (.andReg x y) s = .next t ∧ Frame { regs := [x] } s t ∧
      ∀ k : Nat, k < 8 → t.V[x].getLsbD k = (s.V[x].getLsbD k && s.V[y].getLsbD k)) ∧
    (∃ t : State, exec (.xorReg x y) s = .next t ∧ Frame { regs := [x] } s t ∧
      ∀ k : Nat, k < 8 → t.V[x].getLsbD k = (s.V[x].getLsbD k ^^ s.V[y].getLsbD k))

/-- R126: ADD Vx, Vy. VF is the carry for every x, F included; V[x] is the sum modulo 256 for every x but F, where the
flag stands (90_conflicts.md C7; the spec's D9, log 16). -/
def Obligations.AddSetsCarry : Prop :=
  ∀ (x y : Reg) (s : State),
    decodeWord (BitVec.ofNat 16 (0x8004 + x.val * 0x100 + y.val * 0x10)) = .addReg x y ∧
    ∃ t : State, exec (.addReg x y) s = .next t ∧
      t.V[VF].toNat = (if 255 < s.V[x].toNat + s.V[y].toNat then 1 else 0) ∧
      (x ≠ VF → t.V[x].toNat = (s.V[x].toNat + s.V[y].toNat) % 256) ∧ Frame { regs := [x, VF] } s t

/-- R127, R129, R132: SUB and SUBN. VF is "not borrow" for every x; V[x] is the difference modulo 256 for every x but
F. The operand roles are the spec's G4 (log 25), the order of the two writes its D9 (log 16). -/
def Obligations.SubtractionsSetNotBorrow : Prop :=
  ∀ (x y : Reg) (s : State),
    decodeWord (BitVec.ofNat 16 (0x8005 + x.val * 0x100 + y.val * 0x10)) = .subReg x y ∧
    decodeWord (BitVec.ofNat 16 (0x8007 + x.val * 0x100 + y.val * 0x10)) = .subn x y ∧
    (∃ t : State, exec (.subReg x y) s = .next t ∧
      t.V[VF].toNat = (if s.V[y].toNat ≤ s.V[x].toNat then 1 else 0) ∧
      (x ≠ VF → t.V[x].toNat = (s.V[x].toNat + 256 - s.V[y].toNat) % 256) ∧ Frame { regs := [x, VF] } s t) ∧
    (∃ t : State, exec (.subn x y) s = .next t ∧
      t.V[VF].toNat = (if s.V[x].toNat ≤ s.V[y].toNat then 1 else 0) ∧
      (x ≠ VF → t.V[x].toNat = (s.V[y].toNat + 256 - s.V[x].toNat) % 256) ∧ Frame { regs := [x, VF] } s t)

/-- R128: SHR Vx, whatever y is. VF is the bit shifted out for every x; V[x] is half for every x but F (C7;
the spec's D9, log 16). -/
def Obligations.ShrShiftsRight : Prop :=
  ∀ (x y : Reg) (s : State),
    decodeWord (BitVec.ofNat 16 (0x8006 + x.val * 0x100 + y.val * 0x10)) = .shr x y ∧
    ∃ t : State, exec (.shr x y) s = .next t ∧ t.V[VF].toNat = s.V[x].toNat % 2 ∧
      (x ≠ VF → t.V[x].toNat = s.V[x].toNat / 2) ∧ Frame { regs := [x, VF] } s t

/-- R130, R132: SHL Vx, whatever y is (the spec's inference from SHR, log 30); the order of the two writes is its D9 (log
16). -/
def Obligations.ShlShiftsLeft : Prop :=
  ∀ (x y : Reg) (s : State),
    decodeWord (BitVec.ofNat 16 (0x800E + x.val * 0x100 + y.val * 0x10)) = .shl x y ∧
    ∃ t : State, exec (.shl x y) s = .next t ∧ t.V[VF].toNat = s.V[x].toNat / 128 ∧
      (x ≠ VF → t.V[x].toNat = s.V[x].toNat * 2 % 256) ∧ Frame { regs := [x, VF] } s t

/-- R131: RND Vx, kk: one byte is drawn, the injected one if there is one, and masked, so that a bit of kk that is 0
gives 0 whatever the byte is. No other operation draws one. That injected bytes stand in the list `rndIn`, are taken from
its head, and give way to a free value where it is empty is the model's form of the input `rnd_in` (log 7). -/
def Obligations.RndMasksOneByte : Prop :=
  ∀ (x : Reg) (kk : Byte) (s : State),
    decodeWord (BitVec.ofNat 16 (0xC000 + x.val * 0x100 + kk.toNat)) = .rnd x kk ∧
    ∃ t : State, exec (.rnd x kk) s = .next t ∧ (∃ r : Byte, t.V[x] = r &&& kk) ∧
      (∀ (r : Byte) (rs : List Byte), s.rndIn = r :: rs → t.V[x] = r &&& kk ∧ t.rndIn = rs) ∧
      (s.rndIn = [] → t.rndIn = []) ∧ Frame { regs := [x], rndIn := true } s t ∧
      ∀ (i : Instr) (u : State), (∀ (z : Reg) (m : Byte), i ≠ .rnd z m) → exec i s = .next u → u.rndIn = s.rndIn

/-! ## Index register and memory -/

/-- R140: LD I, nnn. -/
def Obligations.LdILoads : Prop :=
  ∀ (nnn : Addr12) (s : State), decodeWord (BitVec.ofNat 16 (0xA000 + nnn.toNat)) = .ldI nnn ∧
    ∃ t : State, exec (.ldI nnn) s = .next t ∧ t.I.toNat = nnn.toNat ∧ Frame { I := true } s t

/-- R141: ADD I, Vx, 16 bits (the wrap at 65536 is the spec's D3, log 19), no flag. -/
def Obligations.AddIAdds : Prop :=
  ∀ (x : Reg) (s : State), decodeWord (BitVec.ofNat 16 (0xF01E + x.val * 0x100)) = .addI x ∧
    ∃ t : State, exec (.addI x) s = .next t ∧ t.I.toNat = (s.I.toNat + s.V[x].toNat) % 65536 ∧ Frame { I := true } s t

/-- R142: LD F, Vx, the whole of V[x] used (the spec's D24, log 23). -/
def Obligations.LdFPointsAtGlyph : Prop :=
  ∀ (x : Reg) (s : State), decodeWord (BitVec.ofNat 16 (0xF029 + x.val * 0x100)) = .ldF x ∧
    ∃ t : State, exec (.ldF x) s = .next t ∧ t.I.toNat = 0x050 + s.V[x].toNat * 5 ∧ Frame { I := true } s t

/-- R143: LD B, Vx, where the three addresses raise no fault: hundreds, tens and ones at I, I + 1, I + 2, and every
other byte as before. Where one does, AccessBeyondMemoryFaults says so. -/
def Obligations.LdBStoresDigits : Prop :=
  ∀ (x : Reg) (s : State), s.reaches s.I.toNat 3 →
    decodeWord (BitVec.ofNat 16 (0xF033 + x.val * 0x100)) = .ldB x ∧
    ∃ t : State, exec (.ldB x) s = .next t ∧
      (t.byteAt (s.I.toNat % 4096)).toNat = s.V[x].toNat / 100 ∧
      (t.byteAt ((s.I.toNat + 1) % 4096)).toNat = s.V[x].toNat / 10 % 10 ∧
      (t.byteAt ((s.I.toNat + 2) % 4096)).toNat = s.V[x].toNat % 10 ∧ Frame { cells := s.cellsAtI 3 } s t

/-- R144: LD [I], Vx, where the x + 1 addresses raise no fault: V[k] at I + k for k = 0 to x, every other byte as
before, I unchanged (the spec's D15, log 20). -/
def Obligations.StoreRegsStores : Prop :=
  ∀ (x : Reg) (s : State), s.reaches s.I.toNat (x.val + 1) →
    decodeWord (BitVec.ofNat 16 (0xF055 + x.val * 0x100)) = .storeRegs x ∧
    ∃ t : State, exec (.storeRegs x) s = .next t ∧
      (∀ k : Reg, k ≤ x → t.byteAt ((s.I.toNat + k.val) % 4096) = s.V[k]) ∧
      Frame { cells := s.cellsAtI (x.val + 1) } s t

/-- R145: LD Vx, [I], where the x + 1 addresses raise no fault: V[k] takes the byte at I + k for k = 0 to x, every
other register and all of memory as before, I unchanged (the spec's D15, log 20). -/
def Obligations.LoadRegsLoads : Prop :=
  ∀ (x : Reg) (s : State), s.reaches s.I.toNat (x.val + 1) →
    decodeWord (BitVec.ofNat 16 (0xF065 + x.val * 0x100)) = .loadRegs x ∧
    ∃ t : State, exec (.loadRegs x) s = .next t ∧
      (∀ k : Reg, k ≤ x → t.V[k] = s.byteAt ((s.I.toNat + k.val) % 4096)) ∧
      Frame { regs := (List.finRange 16).filter (fun k => k ≤ x) } s t

/-- R144 and R145 together: what `Fx55` stored, an `Fx65` of the same x, with I as it was for the store, loads back,
whatever the registers held in between; the sixteen cells are distinct, also where they wrap. -/
def Obligations.StoreThenLoadRestoresRegisters : Prop :=
  ∀ (x : Reg) (s u t : State) (W : Vector Byte 16), exec (.storeRegs x) s = .next u →
    exec (.loadRegs x) { u with V := W, I := s.I } = .next t → ∀ k : Reg, k ≤ x → t.V[k] = s.V[k]

/-- R42, R143, R144, R145, R161 under OOB_POLICY = fault (the spec's D2 and D26, log 2, 24): a data access that
presents an address of 4096 or more has no successor state; the address reported is the first one out of range. -/
def Obligations.AccessBeyondMemoryFaults : Prop :=
  ∀ (x y : Reg) (n : Nibble) (s : State), s.params.oob = .fault →
    (4096 < s.I.toNat + 3 → exec (.ldB x) s = .fault (.addressOutOfRange (max s.I.toNat 4096) .write)) ∧
    (4096 < s.I.toNat + x.val + 1 →
      exec (.storeRegs x) s = .fault (.addressOutOfRange (max s.I.toNat 4096) .write) ∧
      exec (.loadRegs x) s = .fault (.addressOutOfRange (max s.I.toNat 4096) .read)) ∧
    (0 < n.val → 4096 < s.I.toNat + n.val →
      exec (.drw x y n) s = .fault (.addressOutOfRange (max s.I.toNat 4096) .read))

/-- R43: the cell an address reaches under each policy, the one-byte read and write and the two-byte fetch as R43 writes
them, what a read gives after a write, and that a write changes exactly one cell. What an address of 4096 or more does
under each OOB_POLICY is the spec's D2 (log 2). -/
def Obligations.MemoryPrimitives : Prop :=
  ∀ (s : State) (k : AccessKind) (a b : Nat) (v : Byte),
    (a < 4096 → ∀ p : OobPolicy, effAddr p k a = .ok a) ∧
    (4096 ≤ a → effAddr .wrap12 k a = .ok (a % 4096) ∧ effAddr .fault k a = .error (.addressOutOfRange a k)) ∧
    (s.putByte a v).byteAt a = v ∧ (b ≠ a → (s.putByte a v).byteAt b = s.byteAt b) ∧
    s.loadBytes .read a 1 = (match effAddr s.params.oob .read a with
      | .ok e => .ok [s.byteAt e]
      | .error f => .error f) ∧
    s.storeBytes a [v] = (match effAddr s.params.oob .write a with
      | .ok e => .ok (s.putByte e v)
      | .error f => .error f) ∧
    s.fetch = (match effAddr s.params.oob .fetch s.pc.toNat, effAddr s.params.oob .fetch (s.pc.toNat + 1) with
      | .ok e, .ok e' => .ok (BitVec.ofNat 16 ((s.byteAt e).toNat * 256 + (s.byteAt e').toNat))
      | .error f, _ => .error f
      | .ok _, .error f => .error f)

/-! ## Display -/

/-- R160: CLS. -/
def Obligations.ClsClearsTheScreen : Prop :=
  ∀ s : State, decodeWord 0x00E0 = .cls ∧
    ∃ t : State, exec .cls s = .next t ∧ (∀ c : Cell, Screen.get t.pix c = false) ∧ Frame { pix := true } s t

/-- R161 where the n addresses raise no fault, pixel by pixel: a pixel is toggled exactly when some set bit (bit 7 - c
of row r, column c) falls on it, both coordinates wrapped; VF is 1 exactly when a toggled pixel was on. Bit 7 leftmost
is the spec's D11 (log 18), the coordinates read before VF is written its D10 (log 17). -/
def Obligations.DrwTogglesAndReportsCollision : Prop :=
  ∀ (x y : Reg) (n : Nibble) (s : State), s.reaches s.I.toNat n.val →
    let hit (p : Cell) : Prop := ∃ r c : Nat, r < n.val ∧ c < 8 ∧
      (s.byteAt ((s.I.toNat + r) % 4096)).getLsbD (7 - c) = true ∧
      p.1.val = (s.V[y].toNat + r) % 32 ∧ p.2.val = (s.V[x].toNat + c) % 64
    decodeWord (BitVec.ofNat 16 (0xD000 + x.val * 0x100 + y.val * 0x10 + n.val)) = .drw x y n ∧
    ∃ t : State, exec (.drw x y n) s = .next t ∧
      (∀ p : Cell, hit p → Screen.get t.pix p = !(Screen.get s.pix p)) ∧
      (∀ p : Cell, ¬ hit p → Screen.get t.pix p = Screen.get s.pix p) ∧
      ((∃ p : Cell, hit p ∧ Screen.get s.pix p = true) → t.V[VF] = 1) ∧
      ((∀ p : Cell, hit p → Screen.get s.pix p = false) → t.V[VF] = 0) ∧
      Frame { regs := [VF], pix := true } s t

/-- R163: two draws of the same sprite at the same coordinates restore the screen, and the second reports a collision
exactly when the first turned a pixel on. -/
def Obligations.DrwTwiceRestoresTheScreen : Prop :=
  ∀ (x y : Reg) (n : Nibble) (s u t : State), exec (.drw x y n) s = .next u → exec (.drw x y n) u = .next t →
    u.V[x] = s.V[x] → u.V[y] = s.V[y] →
    t.pix = s.pix ∧
    ((∃ p : Cell, Screen.get s.pix p = false ∧ Screen.get u.pix p = true) → t.V[VF] = 1) ∧
    ((∀ p : Cell, Screen.get s.pix p = false → Screen.get u.pix p = false) → t.V[VF] = 0)

/-- R23, R162: in the representation the source gives, a pixel's word is 0 or PIXEL_ON; whatever word that is, of whatever
width, nonzero as R5 has it, `word != 0` is the pixel and a toggle is `word XOR PIXEL_ON`, on that pixel alone. -/
def Obligations.PixelWordsToggleByXor : Prop :=
  ∀ (w : Nat) (on : PixelOn w) (s : State) (c d : Cell),
    (s.pixWord on c ≠ 0 ↔ Screen.get s.pix c = true) ∧
    (s.setPix (Screen.toggle s.pix c)).pixWord on d = if d = c then s.pixWord on d ^^^ on.val else s.pixWord on d

/-! ## Keypad and timers -/

/-- R170, R171, R177 (KEY_INDEX_POLICY: the spec's D4, log 3): SKP Vx and SKNP Vx for a key number of 0 to 15, and
above 15 under each policy. -/
def Obligations.KeySkips : Prop :=
  ∀ (x : Reg) (s : State),
    let taken (c : Bool) (t : State) : Prop := t.pc.toNat = if c then (s.pc.toNat + 2) % 65536 else s.pc.toNat
    let both (c : Bool) : Prop :=
      (∃ t : State, exec (.skp x) s = .next t ∧ taken c t ∧ Frame { pc := true } s t) ∧
      (∃ t : State, exec (.sknp x) s = .next t ∧ taken (!c) t ∧ Frame { pc := true } s t)
    decodeWord (BitVec.ofNat 16 (0xE09E + x.val * 0x100)) = .skp x ∧
    decodeWord (BitVec.ofNat 16 (0xE0A1 + x.val * 0x100)) = .sknp x ∧
    (∀ k : Key, s.V[x].toNat = k.val → both s.key[k]) ∧
    (∀ k : Key, 15 < s.V[x].toNat → s.params.keyIndex = .mask4 → s.V[x].toNat % 16 = k.val → both s.key[k]) ∧
    (15 < s.V[x].toNat → s.params.keyIndex = .notPressed → both false) ∧
    (15 < s.V[x].toNat → s.params.keyIndex = .fault →
      exec (.skp x) s = .fault (.keyIndexOutOfRange s.V[x]) ∧ exec (.sknp x) s = .fault (.keyIndexOutOfRange s.V[x]))

/-- R172 (KEYWAIT_PICK: the spec's D5, log 4), with the already advanced pc in `s.pc`: with no key down pc goes back by
2; else V[x] takes the number of a key that is down, the lowest or the highest where the policy says so. -/
def Obligations.KeyWait : Prop :=
  ∀ (x : Reg) (s : State), decodeWord (BitVec.ofNat 16 (0xF00A + x.val * 0x100)) = .ldVxK x ∧
    ((∀ k : Key, s.key[k] = false) → ∃ t : State, exec (.ldVxK x) s = .next t ∧
      t.pc.toNat = (s.pc.toNat + 65536 - 2) % 65536 ∧ Frame { pc := true } s t) ∧
    ((∃ k : Key, s.key[k] = true) → ∃ (t : State) (k : Key), exec (.ldVxK x) s = .next t ∧
      s.key[k] = true ∧ t.V[x].toNat = k.val ∧
      (s.params.keyPick = .lowest → ∀ j : Key, s.key[j] = true → k ≤ j) ∧
      (s.params.keyPick = .highest → ∀ j : Key, s.key[j] = true → j ≤ k) ∧ Frame { regs := [x] } s t)

/-- R173, R174, R175: LD Vx, DT; LD DT, Vx; LD ST, Vx: what each does in the execute phase, and what stands after the
step, whose tick comes after the read and sees the value written. -/
def Obligations.TimerMoves : Prop :=
  ∀ (x : Reg) (s : State),
    decodeWord (BitVec.ofNat 16 (0xF007 + x.val * 0x100)) = .ldVxDT x ∧
    decodeWord (BitVec.ofNat 16 (0xF015 + x.val * 0x100)) = .ldDTVx x ∧
    decodeWord (BitVec.ofNat 16 (0xF018 + x.val * 0x100)) = .ldSTVx x ∧
    (∃ t : State, exec (.ldVxDT x) s = .next t ∧ t.V[x] = s.DT ∧ Frame { regs := [x] } s t) ∧
    (∃ t : State, exec (.ldDTVx x) s = .next t ∧ t.DT = s.V[x] ∧ Frame { DT := true } s t) ∧
    (∃ t : State, exec (.ldSTVx x) s = .next t ∧ t.ST = s.V[x] ∧ Frame { ST := true } s t) ∧
    ∀ t : State, step s = .next t →
      (decodeWord t.opcode = .ldVxDT x → t.V[x] = s.DT ∧ t.DT.toNat = s.DT.toNat - 1) ∧
      (decodeWord t.opcode = .ldDTVx x → t.DT.toNat = s.V[x].toNat - 1) ∧
      (decodeWord t.opcode = .ldSTVx x → t.ST.toNat = s.V[x].toNat - 1 ∧
        (s.V[x] = 1 → t.toneReq = true) ∧ (s.V[x] = 0 → t.toneReq = false))

/-! ## UNKNOWN -/

/-- R88, R191: every opcode that decodes to UNKNOWN is reported with that opcode and nothing else happens in its
execute phase. The whole next state of a step that fetches it: `opcode` holds the word and the timers have ticked (that
they do so also here is the spec's D29 and D23, C2, log 22), pc is A + 2, the word is reported (in `event`, log 11), the
step's keypad snapshot has been taken (log 8), the tone request is that of R87, the model's counter has advanced (log 12),
and everything else is unchanged. -/
def Obligations.UnknownReportsItsOpcode : Prop :=
  ∀ (w : Word) (s : State), decodeWord w = .unknown w →
    (∃ t : State, exec (.unknown w) s = .next t ∧ t.event = some (.unknownOpcode w) ∧ Frame { event := true } s t) ∧
    (s.fetch = .ok w → step s = .next { s with
      opcode := w, pc := BitVec.ofNat 16 (s.pc.toNat + 2), event := some (.unknownOpcode w)
      key := s.keyIn.headD s.key, keyIn := s.keyIn.tail
      DT := BitVec.ofNat 8 (s.DT.toNat - 1), ST := BitVec.ofNat 8 (s.ST.toNat - 1)
      toneReq := toneOf s.params.tone (freeTone s.fresh) s.ST, fresh := s.fresh + 1 })

/-! ## Construction, loading, lifecycle -/

/-- R31, R220: the values construction leaves. V, pc and the zeroed program space are the source's; the zeros of I, sp,
the stack, DT, ST, opcode, the screen, the keypad and the rest of memory are the spec's D14 (log 9). -/
def Obligations.ConstructionValues : Prop :=
  ∀ (p : Params) (s : State), s = State.construct p →
    (∀ r : Reg, s.V[r] = 0) ∧ s.pc = 0x200 ∧ s.I = 0 ∧ s.sp = 0 ∧ (∀ k : Fin 16, s.stack[k] = 0) ∧
    s.DT = 0 ∧ s.ST = 0 ∧ s.opcode = 0 ∧ (∀ c : Cell, Screen.get s.pix c = false) ∧
    (∀ k : Key, s.key[k] = false) ∧ (∀ a : Nat, a < 0x050 ∨ 0x0A0 ≤ a → s.byteAt a = 0)

/-- R221: construction copies the 80 bytes of the font to 0x050: row r of glyph d is at 0x050 + 5d + r, whatever the
table is. After that no load reaches them, and no step alters them but one that executes `Fx33` or `Fx55`. -/
def Obligations.FontIsCopiedAtConstruction : Prop :=
  (∀ (p : Params) (d : Fin 16) (r : Fin 5),
    p.font[5 * d.val + r.val]? = some ((State.construct p).byteAt (0x050 + 5 * d.val + r.val))) ∧
  ∀ (s t : State) (a : Nat), 0x050 ≤ a → a ≤ 0x09F →
    (∀ bytes : List Byte, (s.load bytes).1.byteAt a = s.byteAt a) ∧
    (step s = .next t → t.byteAt a ≠ s.byteAt a →
      ∃ x : Reg, decodeWord t.opcode = .ldB x ∨ decodeWord t.opcode = .storeRegs x)

/-- R223, R224, R194: a ROM of at most 3584 bytes is copied verbatim to 0x200 onward, no error is signalled and nothing
else changes; for a longer one RomTooLarge is signalled and the Machine is left exactly as it was. -/
def Obligations.LoadCopiesOrFails : Prop :=
  ∀ (s : State) (bytes : List Byte),
    (bytes.length ≤ 3584 → ∃ t : State, s.load bytes = (t, none) ∧
      (∀ k : Fin bytes.length, t.byteAt (0x200 + k.val) = bytes[k]) ∧
      Frame { cells := (List.range bytes.length).map (fun k => 0x200 + k) } s t) ∧
    (3584 < bytes.length → s.load bytes = (s, some .romTooLarge))

/-- R225, R194, R32, R196, R229: a run is construct, one load, then steps. Construction has a transition and comes first;
only a construction that was loaded steps; a load that fails leaves the Machine as it was and starts no run; nothing
continues from a fault; the first step fetches at 0x200. That no other order has a transition is the spec's D21 and R229
(log 27). -/
def Obligations.LifecycleOrder : Prop :=
  (∀ p : Params, Life.apply .absent (.construct p) = some (.built (State.construct p)) ∧ (State.construct p).pc = 0x200) ∧
  (∀ (e : HostEvent) (l : Life), Life.apply .absent e = some l → ∃ p : Params, e = .construct p) ∧
  (∀ (s : State) (bytes : List Byte), bytes.length ≤ 3584 →
    ∃ t : State, Life.apply (.built s) (.load bytes) = some (.running t) ∧ t.pc = s.pc) ∧
  (∀ (s : State) (bytes : List Byte), 3584 < bytes.length →
    Life.apply (.built s) (.load bytes) = some (.failed s .romTooLarge)) ∧
  (∀ (s : State) (p : Params), Life.apply (.built s) .step = none ∧ Life.apply (.built s) (.construct p) = none) ∧
  (∀ (s : State) (p : Params) (bytes : List Byte),
    Life.apply (.running s) (.construct p) = none ∧ Life.apply (.running s) (.load bytes) = none) ∧
  (∀ s t : State, step s = .next t → Life.apply (.running s) .step = some (.running t)) ∧
  (∀ (s : State) (f : Fault), step s = .fault f → Life.apply (.running s) .step = some (.faulted f)) ∧
  (∀ (s : State) (err : LoadError) (f : Fault) (e : HostEvent),
    Life.apply (.failed s err) e = none ∧ Life.apply (.faulted f) e = none)
end

