-- ==== Sys2Proof/Laws/Decode.lean ====
section
/-! SUPPORT. The fields of an encoded word, and what a word's fields determine (30_encoding.md R61, R62). -/

namespace Sys2Proof

/-! ## The fields of a word of each format -/

theorem toNat_wordXYN {op n : Nat} (x y : Reg) (ho : op < 16) (hn : n < 16) :
    (wordXYN op x y n).toNat = op * 0x1000 + x.val * 0x100 + y.val * 0x10 + n := by
  have := x.isLt; have := y.isLt
  simp only [wordXYN, BitVec.toNat_ofNat]; omega

theorem toNat_wordXKK {op kk : Nat} (x : Reg) (ho : op < 16) (hk : kk < 256) :
    (wordXKK op x kk).toNat = op * 0x1000 + x.val * 0x100 + kk := by
  have := x.isLt
  simp only [wordXKK, BitVec.toNat_ofNat]; omega

theorem toNat_wordNNN {op : Nat} (nnn : Addr12) (ho : op < 16) :
    (wordNNN op nnn).toNat = op * 0x1000 + nnn.toNat := by
  have := nnn.isLt
  simp only [wordNNN, BitVec.toNat_ofNat]; omega

/-- The high nibble is the family. -/
theorem opField_of {w : Word} {op r : Nat} (h : w.toNat = op * 0x1000 + r) (hr : r < 0x1000) : opField w = op := by
  unfold opField; omega

theorem xField_of {w : Word} {op r : Nat} {x : Reg} (h : w.toNat = op * 0x1000 + x.val * 0x100 + r) (hr : r < 0x100) :
    xField w = x := by
  have := x.isLt
  apply Fin.ext; simp only [xField]; omega

theorem yField_of {w : Word} {r n : Nat} {y : Reg} (h : w.toNat = r * 0x100 + y.val * 0x10 + n) (hn : n < 0x10) :
    yField w = y := by
  have := y.isLt
  apply Fin.ext; simp only [yField]; omega

theorem nField_of {w : Word} {r : Nat} {n : Nibble} (h : w.toNat = r * 0x10 + n.val) : nField w = n := by
  have := n.isLt
  apply Fin.ext; simp only [nField]; omega

theorem kkField_of {w : Word} {r : Nat} {kk : Byte} (h : w.toNat = r * 0x100 + kk.toNat) : kkField w = kk := by
  have := kk.isLt
  apply BitVec.eq_of_toNat_eq; simp only [kkField, BitVec.toNat_ofNat]; omega

theorem nnnField_of {w : Word} {op : Nat} {nnn : Addr12} (h : w.toNat = op * 0x1000 + nnn.toNat) :
    nnnField w = nnn := by
  have := nnn.isLt
  apply BitVec.eq_of_toNat_eq; simp only [nnnField, BitVec.toNat_ofNat]; omega

/-- The fields of a word of format I. -/
theorem fields_wordXKK {op : Nat} (x : Reg) (kk : Byte) (ho : op < 16) :
    opField (wordXKK op x kk.toNat) = op ∧ xField (wordXKK op x kk.toNat) = x ∧
      kkField (wordXKK op x kk.toNat) = kk := by
  have hk : kk.toNat < 256 := kk.isLt
  have hx := x.isLt
  have h := toNat_wordXKK x ho hk
  generalize wordXKK op x kk.toNat = w at h ⊢
  refine ⟨?_, ?_, ?_⟩
  · exact opField_of (r := x.val * 0x100 + kk.toNat) (by rw [h]; omega) (by omega)
  · exact xField_of h hk
  · exact kkField_of (r := op * 0x10 + x.val) (by rw [h]; omega)

/-- The fields of a word of format X. -/
theorem fields_wordX {op sub : Nat} (x : Reg) (ho : op < 16) (hs : sub < 256) :
    opField (wordXKK op x sub) = op ∧ xField (wordXKK op x sub) = x ∧ (wordXKK op x sub).toNat % 0x100 = sub := by
  have hx := x.isLt
  have h := toNat_wordXKK x ho hs
  generalize wordXKK op x sub = w at h ⊢
  refine ⟨?_, ?_, by omega⟩
  · exact opField_of (r := x.val * 0x100 + sub) (by rw [h]; omega) (by omega)
  · exact xField_of h hs

/-- The fields of a word of format R. -/
theorem fields_wordXY {op sub : Nat} (x y : Reg) (ho : op < 16) (hs : sub < 16) :
    opField (wordXYN op x y sub) = op ∧ xField (wordXYN op x y sub) = x ∧ yField (wordXYN op x y sub) = y ∧
      (wordXYN op x y sub).toNat % 16 = sub := by
  have hx := x.isLt
  have hy := y.isLt
  have h := toNat_wordXYN x y ho hs
  generalize wordXYN op x y sub = w at h ⊢
  refine ⟨?_, ?_, ?_, by omega⟩
  · exact opField_of (r := x.val * 0x100 + y.val * 0x10 + sub) (by rw [h]; omega) (by omega)
  · exact xField_of (op := op) (r := y.val * 0x10 + sub) (by rw [h]; omega) (by omega)
  · exact yField_of (r := op * 0x10 + x.val) (n := sub) (by rw [h]; omega) hs

/-- The fields of a word of format D, and of the register skips. -/
theorem fields_wordXYN {op : Nat} (x y : Reg) (n : Nibble) (ho : op < 16) :
    opField (wordXYN op x y n.val) = op ∧ xField (wordXYN op x y n.val) = x ∧ yField (wordXYN op x y n.val) = y ∧
      nField (wordXYN op x y n.val) = n := by
  obtain ⟨h1, h2, h3, h4⟩ := fields_wordXY x y ho n.isLt
  exact ⟨h1, h2, h3, Fin.ext h4⟩

/-- The fields of a word of format A. -/
theorem fields_wordNNN {op : Nat} (nnn : Addr12) (ho : op < 16) :
    opField (wordNNN op nnn) = op ∧ nnnField (wordNNN op nnn) = nnn := by
  have h := toNat_wordNNN nnn ho
  exact ⟨opField_of h nnn.isLt, nnnField_of h⟩

/-! ## A word from its fields -/

/-- Every word is the number its four fields form. -/
theorem toNat_eq_fields (w : Word) :
    w.toNat = opField w * 0x1000 + (xField w).val * 0x100 + (yField w).val * 0x10 + (nField w).val := by
  simp only [opField, xField, yField, nField]; omega

theorem opField_lt (w : Word) : opField w < 16 := by
  have := w.isLt
  unfold opField; omega

theorem toNat_kkField (w : Word) : (kkField w).toNat = w.toNat % 0x100 := by
  simp only [kkField, BitVec.toNat_ofNat]; omega

theorem toNat_nnnField (w : Word) : (nnnField w).toNat = w.toNat % 0x1000 := by
  simp only [nnnField, BitVec.toNat_ofNat]; omega

/-! ## The masks of the opcode map -/

theorem toNat_and_F000 (w : Word) : (w &&& 0xF000#16).toNat = w.toNat / 0x1000 * 0x1000 := by
  have h : w &&& 0xF000#16 = (w >>> 12) <<< 12 := by
    ext i hi; interval_cases i <;> simp
  have := w.isLt
  rw [h, BitVec.toNat_shiftLeft, BitVec.toNat_ushiftRight, Nat.shiftRight_eq_div_pow, Nat.shiftLeft_eq]
  omega

theorem toNat_and_low (w : Word) : (w &&& 0x000F#16).toNat = w.toNat % 16 := by
  rw [BitVec.toNat_and]; exact Nat.and_two_pow_sub_one_eq_mod _ 4

theorem toNat_and_low8 (w : Word) : (w &&& 0x00FF#16).toNat = w.toNat % 256 := by
  rw [BitVec.toNat_and]; exact Nat.and_two_pow_sub_one_eq_mod _ 8

theorem toNat_and_F00F (w : Word) : (w &&& 0xF00F#16).toNat = w.toNat / 0x1000 * 0x1000 + w.toNat % 16 := by
  have h : w &&& 0xF00F#16 = (w &&& 0xF000#16) ||| (w &&& 0x000F#16) := by
    ext i hi; interval_cases i <;> simp
  rw [h, BitVec.toNat_or, toNat_and_F000, toNat_and_low]
  have := Nat.shiftLeft_add_eq_or_of_lt (show w.toNat % 16 < 2 ^ 12 by omega) (w.toNat / 0x1000)
  rw [Nat.shiftLeft_eq] at this
  exact this.symm

theorem toNat_and_F0FF (w : Word) : (w &&& 0xF0FF#16).toNat = w.toNat / 0x1000 * 0x1000 + w.toNat % 256 := by
  have h : w &&& 0xF0FF#16 = (w &&& 0xF000#16) ||| (w &&& 0x00FF#16) := by
    ext i hi; interval_cases i <;> simp
  rw [h, BitVec.toNat_or, toNat_and_F000, toNat_and_low8]
  have := Nat.shiftLeft_add_eq_or_of_lt (show w.toNat % 256 < 2 ^ 12 by omega) (w.toNat / 0x1000)
  rw [Nat.shiftLeft_eq] at this
  exact this.symm

/-- Formats A, I, D and the register skips: the row of a family. -/
theorem selects_family {w : Word} {op r : Nat} (h : w.toNat = op * 0x1000 + r) (hr : r < 0x1000) :
    selects w (0xF000, BitVec.ofNat 16 (op * 0x1000)) = true := by
  simp only [selects, decide_eq_true_eq]
  apply BitVec.eq_of_toNat_eq
  refine (toNat_and_F000 w).trans ?_
  rw [BitVec.toNat_ofNat]; have := w.isLt; omega

/-- Format R: the row of a family and a sub-opcode in bits 3:0. -/
theorem selects_nibble {w : Word} {op r n : Nat} (h : w.toNat = op * 0x1000 + r * 0x10 + n) (hr : r < 0x100)
    (hn : n < 0x10) : selects w (0xF00F, BitVec.ofNat 16 (op * 0x1000 + n)) = true := by
  simp only [selects, decide_eq_true_eq]
  apply BitVec.eq_of_toNat_eq
  refine (toNat_and_F00F w).trans ?_
  rw [BitVec.toNat_ofNat]; have := w.isLt; omega

/-- Format X: the row of a family and a sub-opcode in bits 7:0. -/
theorem selects_byte {w : Word} {op r n : Nat} (h : w.toNat = op * 0x1000 + r * 0x100 + n) (hr : r < 0x10)
    (hn : n < 0x100) : selects w (0xF0FF, BitVec.ofNat 16 (op * 0x1000 + n)) = true := by
  simp only [selects, decide_eq_true_eq]
  apply BitVec.eq_of_toNat_eq
  refine (toNat_and_F0FF w).trans ?_
  rw [BitVec.toNat_ofNat]; have := w.isLt; omega

/-! ## Words and bytes -/

/-- The two bytes of a word form that word again. -/
theorem wordOfBytes_bytesOfWord (w : Word) (rest : List Byte) :
    decode (bytesOfWord w ++ rest) = .ok (decodeWord w, rest) := by
  have h : wordOfBytes (BitVec.ofNat 8 (w.toNat / 256)) (BitVec.ofNat 8 (w.toNat % 256)) = w := by
    have := w.isLt
    apply BitVec.eq_of_toNat_eq
    simp only [wordOfBytes, BitVec.toNat_ofNat]; omega
  simp [bytesOfWord, decode, h]

theorem toNat_wordOfBytes (hi lo : Byte) : (wordOfBytes hi lo).toNat = hi.toNat * 256 + lo.toNat := by
  have := hi.isLt; have := lo.isLt
  simp only [wordOfBytes, BitVec.toNat_ofNat]; omega

end Sys2Proof
end

