-- ==== Sys2Proof/Laws/State.lean ====
section
/-! SUPPORT. What each named update of the state does to each field: one lemma per field per update, so that no proof unfolds a record update. -/

namespace Sys2Proof.Machine

open Sys2Proof.Config

/-! ## setV -/

@[simp] theorem State.setV_mem (s : State) (x : Reg) (v : Byte) : (s.setV x v).mem = s.mem := rfl
@[simp] theorem State.setV_V (s : State) (x : Reg) (v : Byte) : (s.setV x v).V = s.V.set x v := rfl
@[simp] theorem State.setV_I (s : State) (x : Reg) (v : Byte) : (s.setV x v).I = s.I := rfl
@[simp] theorem State.setV_pc (s : State) (x : Reg) (v : Byte) : (s.setV x v).pc = s.pc := rfl
@[simp] theorem State.setV_stack (s : State) (x : Reg) (v : Byte) : (s.setV x v).stack = s.stack := rfl
@[simp] theorem State.setV_sp (s : State) (x : Reg) (v : Byte) : (s.setV x v).sp = s.sp := rfl
@[simp] theorem State.setV_DT (s : State) (x : Reg) (v : Byte) : (s.setV x v).DT = s.DT := rfl
@[simp] theorem State.setV_ST (s : State) (x : Reg) (v : Byte) : (s.setV x v).ST = s.ST := rfl
@[simp] theorem State.setV_pix (s : State) (x : Reg) (v : Byte) : (s.setV x v).pix = s.pix := rfl
@[simp] theorem State.setV_key (s : State) (x : Reg) (v : Byte) : (s.setV x v).key = s.key := rfl
@[simp] theorem State.setV_opcode (s : State) (x : Reg) (v : Byte) : (s.setV x v).opcode = s.opcode := rfl
@[simp] theorem State.setV_keyIn (s : State) (x : Reg) (v : Byte) : (s.setV x v).keyIn = s.keyIn := rfl
@[simp] theorem State.setV_rndIn (s : State) (x : Reg) (v : Byte) : (s.setV x v).rndIn = s.rndIn := rfl
@[simp] theorem State.setV_toneReq (s : State) (x : Reg) (v : Byte) : (s.setV x v).toneReq = s.toneReq := rfl
@[simp] theorem State.setV_event (s : State) (x : Reg) (v : Byte) : (s.setV x v).event = s.event := rfl
@[simp] theorem State.setV_fresh (s : State) (x : Reg) (v : Byte) : (s.setV x v).fresh = s.fresh := rfl
@[simp] theorem State.setV_params (s : State) (x : Reg) (v : Byte) : (s.setV x v).params = s.params := rfl

/-! ## setI -/

@[simp] theorem State.setI_mem (s : State) (v : Word) : (s.setI v).mem = s.mem := rfl
@[simp] theorem State.setI_V (s : State) (v : Word) : (s.setI v).V = s.V := rfl
@[simp] theorem State.setI_I (s : State) (v : Word) : (s.setI v).I = v := rfl
@[simp] theorem State.setI_pc (s : State) (v : Word) : (s.setI v).pc = s.pc := rfl
@[simp] theorem State.setI_stack (s : State) (v : Word) : (s.setI v).stack = s.stack := rfl
@[simp] theorem State.setI_sp (s : State) (v : Word) : (s.setI v).sp = s.sp := rfl
@[simp] theorem State.setI_DT (s : State) (v : Word) : (s.setI v).DT = s.DT := rfl
@[simp] theorem State.setI_ST (s : State) (v : Word) : (s.setI v).ST = s.ST := rfl
@[simp] theorem State.setI_pix (s : State) (v : Word) : (s.setI v).pix = s.pix := rfl
@[simp] theorem State.setI_key (s : State) (v : Word) : (s.setI v).key = s.key := rfl
@[simp] theorem State.setI_opcode (s : State) (v : Word) : (s.setI v).opcode = s.opcode := rfl
@[simp] theorem State.setI_keyIn (s : State) (v : Word) : (s.setI v).keyIn = s.keyIn := rfl
@[simp] theorem State.setI_rndIn (s : State) (v : Word) : (s.setI v).rndIn = s.rndIn := rfl
@[simp] theorem State.setI_toneReq (s : State) (v : Word) : (s.setI v).toneReq = s.toneReq := rfl
@[simp] theorem State.setI_event (s : State) (v : Word) : (s.setI v).event = s.event := rfl
@[simp] theorem State.setI_fresh (s : State) (v : Word) : (s.setI v).fresh = s.fresh := rfl
@[simp] theorem State.setI_params (s : State) (v : Word) : (s.setI v).params = s.params := rfl

/-! ## setPc -/

@[simp] theorem State.setPc_mem (s : State) (v : Word) : (s.setPc v).mem = s.mem := rfl
@[simp] theorem State.setPc_V (s : State) (v : Word) : (s.setPc v).V = s.V := rfl
@[simp] theorem State.setPc_I (s : State) (v : Word) : (s.setPc v).I = s.I := rfl
@[simp] theorem State.setPc_pc (s : State) (v : Word) : (s.setPc v).pc = v := rfl
@[simp] theorem State.setPc_stack (s : State) (v : Word) : (s.setPc v).stack = s.stack := rfl
@[simp] theorem State.setPc_sp (s : State) (v : Word) : (s.setPc v).sp = s.sp := rfl
@[simp] theorem State.setPc_DT (s : State) (v : Word) : (s.setPc v).DT = s.DT := rfl
@[simp] theorem State.setPc_ST (s : State) (v : Word) : (s.setPc v).ST = s.ST := rfl
@[simp] theorem State.setPc_pix (s : State) (v : Word) : (s.setPc v).pix = s.pix := rfl
@[simp] theorem State.setPc_key (s : State) (v : Word) : (s.setPc v).key = s.key := rfl
@[simp] theorem State.setPc_opcode (s : State) (v : Word) : (s.setPc v).opcode = s.opcode := rfl
@[simp] theorem State.setPc_keyIn (s : State) (v : Word) : (s.setPc v).keyIn = s.keyIn := rfl
@[simp] theorem State.setPc_rndIn (s : State) (v : Word) : (s.setPc v).rndIn = s.rndIn := rfl
@[simp] theorem State.setPc_toneReq (s : State) (v : Word) : (s.setPc v).toneReq = s.toneReq := rfl
@[simp] theorem State.setPc_event (s : State) (v : Word) : (s.setPc v).event = s.event := rfl
@[simp] theorem State.setPc_fresh (s : State) (v : Word) : (s.setPc v).fresh = s.fresh := rfl
@[simp] theorem State.setPc_params (s : State) (v : Word) : (s.setPc v).params = s.params := rfl

/-! ## setDT -/

@[simp] theorem State.setDT_mem (s : State) (v : Byte) : (s.setDT v).mem = s.mem := rfl
@[simp] theorem State.setDT_V (s : State) (v : Byte) : (s.setDT v).V = s.V := rfl
@[simp] theorem State.setDT_I (s : State) (v : Byte) : (s.setDT v).I = s.I := rfl
@[simp] theorem State.setDT_pc (s : State) (v : Byte) : (s.setDT v).pc = s.pc := rfl
@[simp] theorem State.setDT_stack (s : State) (v : Byte) : (s.setDT v).stack = s.stack := rfl
@[simp] theorem State.setDT_sp (s : State) (v : Byte) : (s.setDT v).sp = s.sp := rfl
@[simp] theorem State.setDT_DT (s : State) (v : Byte) : (s.setDT v).DT = v := rfl
@[simp] theorem State.setDT_ST (s : State) (v : Byte) : (s.setDT v).ST = s.ST := rfl
@[simp] theorem State.setDT_pix (s : State) (v : Byte) : (s.setDT v).pix = s.pix := rfl
@[simp] theorem State.setDT_key (s : State) (v : Byte) : (s.setDT v).key = s.key := rfl
@[simp] theorem State.setDT_opcode (s : State) (v : Byte) : (s.setDT v).opcode = s.opcode := rfl
@[simp] theorem State.setDT_keyIn (s : State) (v : Byte) : (s.setDT v).keyIn = s.keyIn := rfl
@[simp] theorem State.setDT_rndIn (s : State) (v : Byte) : (s.setDT v).rndIn = s.rndIn := rfl
@[simp] theorem State.setDT_toneReq (s : State) (v : Byte) : (s.setDT v).toneReq = s.toneReq := rfl
@[simp] theorem State.setDT_event (s : State) (v : Byte) : (s.setDT v).event = s.event := rfl
@[simp] theorem State.setDT_fresh (s : State) (v : Byte) : (s.setDT v).fresh = s.fresh := rfl
@[simp] theorem State.setDT_params (s : State) (v : Byte) : (s.setDT v).params = s.params := rfl

/-! ## setST -/

@[simp] theorem State.setST_mem (s : State) (v : Byte) : (s.setST v).mem = s.mem := rfl
@[simp] theorem State.setST_V (s : State) (v : Byte) : (s.setST v).V = s.V := rfl
@[simp] theorem State.setST_I (s : State) (v : Byte) : (s.setST v).I = s.I := rfl
@[simp] theorem State.setST_pc (s : State) (v : Byte) : (s.setST v).pc = s.pc := rfl
@[simp] theorem State.setST_stack (s : State) (v : Byte) : (s.setST v).stack = s.stack := rfl
@[simp] theorem State.setST_sp (s : State) (v : Byte) : (s.setST v).sp = s.sp := rfl
@[simp] theorem State.setST_DT (s : State) (v : Byte) : (s.setST v).DT = s.DT := rfl
@[simp] theorem State.setST_ST (s : State) (v : Byte) : (s.setST v).ST = v := rfl
@[simp] theorem State.setST_pix (s : State) (v : Byte) : (s.setST v).pix = s.pix := rfl
@[simp] theorem State.setST_key (s : State) (v : Byte) : (s.setST v).key = s.key := rfl
@[simp] theorem State.setST_opcode (s : State) (v : Byte) : (s.setST v).opcode = s.opcode := rfl
@[simp] theorem State.setST_keyIn (s : State) (v : Byte) : (s.setST v).keyIn = s.keyIn := rfl
@[simp] theorem State.setST_rndIn (s : State) (v : Byte) : (s.setST v).rndIn = s.rndIn := rfl
@[simp] theorem State.setST_toneReq (s : State) (v : Byte) : (s.setST v).toneReq = s.toneReq := rfl
@[simp] theorem State.setST_event (s : State) (v : Byte) : (s.setST v).event = s.event := rfl
@[simp] theorem State.setST_fresh (s : State) (v : Byte) : (s.setST v).fresh = s.fresh := rfl
@[simp] theorem State.setST_params (s : State) (v : Byte) : (s.setST v).params = s.params := rfl

/-! ## setPix -/

@[simp] theorem State.setPix_mem (s : State) (p : Screen) : (s.setPix p).mem = s.mem := rfl
@[simp] theorem State.setPix_V (s : State) (p : Screen) : (s.setPix p).V = s.V := rfl
@[simp] theorem State.setPix_I (s : State) (p : Screen) : (s.setPix p).I = s.I := rfl
@[simp] theorem State.setPix_pc (s : State) (p : Screen) : (s.setPix p).pc = s.pc := rfl
@[simp] theorem State.setPix_stack (s : State) (p : Screen) : (s.setPix p).stack = s.stack := rfl
@[simp] theorem State.setPix_sp (s : State) (p : Screen) : (s.setPix p).sp = s.sp := rfl
@[simp] theorem State.setPix_DT (s : State) (p : Screen) : (s.setPix p).DT = s.DT := rfl
@[simp] theorem State.setPix_ST (s : State) (p : Screen) : (s.setPix p).ST = s.ST := rfl
@[simp] theorem State.setPix_pix (s : State) (p : Screen) : (s.setPix p).pix = p := rfl
@[simp] theorem State.setPix_key (s : State) (p : Screen) : (s.setPix p).key = s.key := rfl
@[simp] theorem State.setPix_opcode (s : State) (p : Screen) : (s.setPix p).opcode = s.opcode := rfl
@[simp] theorem State.setPix_keyIn (s : State) (p : Screen) : (s.setPix p).keyIn = s.keyIn := rfl
@[simp] theorem State.setPix_rndIn (s : State) (p : Screen) : (s.setPix p).rndIn = s.rndIn := rfl
@[simp] theorem State.setPix_toneReq (s : State) (p : Screen) : (s.setPix p).toneReq = s.toneReq := rfl
@[simp] theorem State.setPix_event (s : State) (p : Screen) : (s.setPix p).event = s.event := rfl
@[simp] theorem State.setPix_fresh (s : State) (p : Screen) : (s.setPix p).fresh = s.fresh := rfl
@[simp] theorem State.setPix_params (s : State) (p : Screen) : (s.setPix p).params = s.params := rfl

/-! ## report -/

@[simp] theorem State.report_mem (s : State) (e : Event) : (s.report e).mem = s.mem := rfl
@[simp] theorem State.report_V (s : State) (e : Event) : (s.report e).V = s.V := rfl
@[simp] theorem State.report_I (s : State) (e : Event) : (s.report e).I = s.I := rfl
@[simp] theorem State.report_pc (s : State) (e : Event) : (s.report e).pc = s.pc := rfl
@[simp] theorem State.report_stack (s : State) (e : Event) : (s.report e).stack = s.stack := rfl
@[simp] theorem State.report_sp (s : State) (e : Event) : (s.report e).sp = s.sp := rfl
@[simp] theorem State.report_DT (s : State) (e : Event) : (s.report e).DT = s.DT := rfl
@[simp] theorem State.report_ST (s : State) (e : Event) : (s.report e).ST = s.ST := rfl
@[simp] theorem State.report_pix (s : State) (e : Event) : (s.report e).pix = s.pix := rfl
@[simp] theorem State.report_key (s : State) (e : Event) : (s.report e).key = s.key := rfl
@[simp] theorem State.report_opcode (s : State) (e : Event) : (s.report e).opcode = s.opcode := rfl
@[simp] theorem State.report_keyIn (s : State) (e : Event) : (s.report e).keyIn = s.keyIn := rfl
@[simp] theorem State.report_rndIn (s : State) (e : Event) : (s.report e).rndIn = s.rndIn := rfl
@[simp] theorem State.report_toneReq (s : State) (e : Event) : (s.report e).toneReq = s.toneReq := rfl
@[simp] theorem State.report_event (s : State) (e : Event) : (s.report e).event = some e := rfl
@[simp] theorem State.report_fresh (s : State) (e : Event) : (s.report e).fresh = s.fresh := rfl
@[simp] theorem State.report_params (s : State) (e : Event) : (s.report e).params = s.params := rfl

/-! ## afterDraw -/

@[simp] theorem State.afterDraw_mem (s : State) : (s.afterDraw).mem = s.mem := rfl
@[simp] theorem State.afterDraw_V (s : State) : (s.afterDraw).V = s.V := rfl
@[simp] theorem State.afterDraw_I (s : State) : (s.afterDraw).I = s.I := rfl
@[simp] theorem State.afterDraw_pc (s : State) : (s.afterDraw).pc = s.pc := rfl
@[simp] theorem State.afterDraw_stack (s : State) : (s.afterDraw).stack = s.stack := rfl
@[simp] theorem State.afterDraw_sp (s : State) : (s.afterDraw).sp = s.sp := rfl
@[simp] theorem State.afterDraw_DT (s : State) : (s.afterDraw).DT = s.DT := rfl
@[simp] theorem State.afterDraw_ST (s : State) : (s.afterDraw).ST = s.ST := rfl
@[simp] theorem State.afterDraw_pix (s : State) : (s.afterDraw).pix = s.pix := rfl
@[simp] theorem State.afterDraw_key (s : State) : (s.afterDraw).key = s.key := rfl
@[simp] theorem State.afterDraw_opcode (s : State) : (s.afterDraw).opcode = s.opcode := rfl
@[simp] theorem State.afterDraw_keyIn (s : State) : (s.afterDraw).keyIn = s.keyIn := rfl
@[simp] theorem State.afterDraw_rndIn (s : State) : (s.afterDraw).rndIn = s.rndIn.tail := rfl
@[simp] theorem State.afterDraw_toneReq (s : State) : (s.afterDraw).toneReq = s.toneReq := rfl
@[simp] theorem State.afterDraw_event (s : State) : (s.afterDraw).event = s.event := rfl
@[simp] theorem State.afterDraw_fresh (s : State) : (s.afterDraw).fresh = s.fresh := rfl
@[simp] theorem State.afterDraw_params (s : State) : (s.afterDraw).params = s.params := rfl

/-! ## putByte -/

@[simp] theorem State.putByte_mem (s : State) (a : Nat) (v : Byte) : (s.putByte a v).mem = Memory.write s.params.font s.mem a v := rfl
@[simp] theorem State.putByte_V (s : State) (a : Nat) (v : Byte) : (s.putByte a v).V = s.V := rfl
@[simp] theorem State.putByte_I (s : State) (a : Nat) (v : Byte) : (s.putByte a v).I = s.I := rfl
@[simp] theorem State.putByte_pc (s : State) (a : Nat) (v : Byte) : (s.putByte a v).pc = s.pc := rfl
@[simp] theorem State.putByte_stack (s : State) (a : Nat) (v : Byte) : (s.putByte a v).stack = s.stack := rfl
@[simp] theorem State.putByte_sp (s : State) (a : Nat) (v : Byte) : (s.putByte a v).sp = s.sp := rfl
@[simp] theorem State.putByte_DT (s : State) (a : Nat) (v : Byte) : (s.putByte a v).DT = s.DT := rfl
@[simp] theorem State.putByte_ST (s : State) (a : Nat) (v : Byte) : (s.putByte a v).ST = s.ST := rfl
@[simp] theorem State.putByte_pix (s : State) (a : Nat) (v : Byte) : (s.putByte a v).pix = s.pix := rfl
@[simp] theorem State.putByte_key (s : State) (a : Nat) (v : Byte) : (s.putByte a v).key = s.key := rfl
@[simp] theorem State.putByte_opcode (s : State) (a : Nat) (v : Byte) : (s.putByte a v).opcode = s.opcode := rfl
@[simp] theorem State.putByte_keyIn (s : State) (a : Nat) (v : Byte) : (s.putByte a v).keyIn = s.keyIn := rfl
@[simp] theorem State.putByte_rndIn (s : State) (a : Nat) (v : Byte) : (s.putByte a v).rndIn = s.rndIn := rfl
@[simp] theorem State.putByte_toneReq (s : State) (a : Nat) (v : Byte) : (s.putByte a v).toneReq = s.toneReq := rfl
@[simp] theorem State.putByte_event (s : State) (a : Nat) (v : Byte) : (s.putByte a v).event = s.event := rfl
@[simp] theorem State.putByte_fresh (s : State) (a : Nat) (v : Byte) : (s.putByte a v).fresh = s.fresh := rfl
@[simp] theorem State.putByte_params (s : State) (a : Nat) (v : Byte) : (s.putByte a v).params = s.params := rfl

/-! ## setVFlag -/

@[simp] theorem State.setVFlag_mem (s : State) (x : Reg) (v : Byte) (c : Bool) : (s.setVFlag x v c).mem = s.mem := rfl
@[simp] theorem State.setVFlag_V (s : State) (x : Reg) (v : Byte) (c : Bool) : (s.setVFlag x v c).V = (s.V.set x v).set VF (flagByte c) := rfl
@[simp] theorem State.setVFlag_I (s : State) (x : Reg) (v : Byte) (c : Bool) : (s.setVFlag x v c).I = s.I := rfl
@[simp] theorem State.setVFlag_pc (s : State) (x : Reg) (v : Byte) (c : Bool) : (s.setVFlag x v c).pc = s.pc := rfl
@[simp] theorem State.setVFlag_stack (s : State) (x : Reg) (v : Byte) (c : Bool) : (s.setVFlag x v c).stack = s.stack := rfl
@[simp] theorem State.setVFlag_sp (s : State) (x : Reg) (v : Byte) (c : Bool) : (s.setVFlag x v c).sp = s.sp := rfl
@[simp] theorem State.setVFlag_DT (s : State) (x : Reg) (v : Byte) (c : Bool) : (s.setVFlag x v c).DT = s.DT := rfl
@[simp] theorem State.setVFlag_ST (s : State) (x : Reg) (v : Byte) (c : Bool) : (s.setVFlag x v c).ST = s.ST := rfl
@[simp] theorem State.setVFlag_pix (s : State) (x : Reg) (v : Byte) (c : Bool) : (s.setVFlag x v c).pix = s.pix := rfl
@[simp] theorem State.setVFlag_key (s : State) (x : Reg) (v : Byte) (c : Bool) : (s.setVFlag x v c).key = s.key := rfl
@[simp] theorem State.setVFlag_opcode (s : State) (x : Reg) (v : Byte) (c : Bool) : (s.setVFlag x v c).opcode = s.opcode := rfl
@[simp] theorem State.setVFlag_keyIn (s : State) (x : Reg) (v : Byte) (c : Bool) : (s.setVFlag x v c).keyIn = s.keyIn := rfl
@[simp] theorem State.setVFlag_rndIn (s : State) (x : Reg) (v : Byte) (c : Bool) : (s.setVFlag x v c).rndIn = s.rndIn := rfl
@[simp] theorem State.setVFlag_toneReq (s : State) (x : Reg) (v : Byte) (c : Bool) : (s.setVFlag x v c).toneReq = s.toneReq := rfl
@[simp] theorem State.setVFlag_event (s : State) (x : Reg) (v : Byte) (c : Bool) : (s.setVFlag x v c).event = s.event := rfl
@[simp] theorem State.setVFlag_fresh (s : State) (x : Reg) (v : Byte) (c : Bool) : (s.setVFlag x v c).fresh = s.fresh := rfl
@[simp] theorem State.setVFlag_params (s : State) (x : Reg) (v : Byte) (c : Bool) : (s.setVFlag x v c).params = s.params := rfl

/-! ## tick -/

@[simp] theorem State.tick_mem (s : State) : (s.tick).mem = s.mem := rfl
@[simp] theorem State.tick_V (s : State) : (s.tick).V = s.V := rfl
@[simp] theorem State.tick_I (s : State) : (s.tick).I = s.I := rfl
@[simp] theorem State.tick_pc (s : State) : (s.tick).pc = s.pc := rfl
@[simp] theorem State.tick_stack (s : State) : (s.tick).stack = s.stack := rfl
@[simp] theorem State.tick_sp (s : State) : (s.tick).sp = s.sp := rfl
@[simp] theorem State.tick_DT (s : State) : (s.tick).DT = countDown s.DT := rfl
@[simp] theorem State.tick_ST (s : State) : (s.tick).ST = countDown s.ST := rfl
@[simp] theorem State.tick_pix (s : State) : (s.tick).pix = s.pix := rfl
@[simp] theorem State.tick_key (s : State) : (s.tick).key = s.key := rfl
@[simp] theorem State.tick_opcode (s : State) : (s.tick).opcode = s.opcode := rfl
@[simp] theorem State.tick_keyIn (s : State) : (s.tick).keyIn = s.keyIn := rfl
@[simp] theorem State.tick_rndIn (s : State) : (s.tick).rndIn = s.rndIn := rfl
@[simp] theorem State.tick_toneReq (s : State) : (s.tick).toneReq = toneOf s.params.tone (freeTone s.fresh) s.ST := rfl
@[simp] theorem State.tick_event (s : State) : (s.tick).event = s.event := rfl
@[simp] theorem State.tick_fresh (s : State) : (s.tick).fresh = s.fresh + 1 := rfl
@[simp] theorem State.tick_params (s : State) : (s.tick).params = s.params := rfl

/-! ## skipIf -/

@[simp] theorem State.skipIf_mem (s : State) (c : Bool) : (s.skipIf c).mem = s.mem := by
  unfold State.skipIf; split <;> rfl
@[simp] theorem State.skipIf_V (s : State) (c : Bool) : (s.skipIf c).V = s.V := by
  unfold State.skipIf; split <;> rfl
@[simp] theorem State.skipIf_I (s : State) (c : Bool) : (s.skipIf c).I = s.I := by
  unfold State.skipIf; split <;> rfl
@[simp] theorem State.skipIf_stack (s : State) (c : Bool) : (s.skipIf c).stack = s.stack := by
  unfold State.skipIf; split <;> rfl
@[simp] theorem State.skipIf_sp (s : State) (c : Bool) : (s.skipIf c).sp = s.sp := by
  unfold State.skipIf; split <;> rfl
@[simp] theorem State.skipIf_DT (s : State) (c : Bool) : (s.skipIf c).DT = s.DT := by
  unfold State.skipIf; split <;> rfl
@[simp] theorem State.skipIf_ST (s : State) (c : Bool) : (s.skipIf c).ST = s.ST := by
  unfold State.skipIf; split <;> rfl
@[simp] theorem State.skipIf_pix (s : State) (c : Bool) : (s.skipIf c).pix = s.pix := by
  unfold State.skipIf; split <;> rfl
@[simp] theorem State.skipIf_key (s : State) (c : Bool) : (s.skipIf c).key = s.key := by
  unfold State.skipIf; split <;> rfl
@[simp] theorem State.skipIf_opcode (s : State) (c : Bool) : (s.skipIf c).opcode = s.opcode := by
  unfold State.skipIf; split <;> rfl
@[simp] theorem State.skipIf_keyIn (s : State) (c : Bool) : (s.skipIf c).keyIn = s.keyIn := by
  unfold State.skipIf; split <;> rfl
@[simp] theorem State.skipIf_rndIn (s : State) (c : Bool) : (s.skipIf c).rndIn = s.rndIn := by
  unfold State.skipIf; split <;> rfl
@[simp] theorem State.skipIf_toneReq (s : State) (c : Bool) : (s.skipIf c).toneReq = s.toneReq := by
  unfold State.skipIf; split <;> rfl
@[simp] theorem State.skipIf_event (s : State) (c : Bool) : (s.skipIf c).event = s.event := by
  unfold State.skipIf; split <;> rfl
@[simp] theorem State.skipIf_fresh (s : State) (c : Bool) : (s.skipIf c).fresh = s.fresh := by
  unfold State.skipIf; split <;> rfl
@[simp] theorem State.skipIf_params (s : State) (c : Bool) : (s.skipIf c).params = s.params := by
  unfold State.skipIf; split <;> rfl

/-! ## callTo -/

@[simp] theorem State.callTo_mem (s : State) (v : Word) : (s.callTo v).mem = s.mem := by
  unfold State.callTo; split <;> rfl
@[simp] theorem State.callTo_V (s : State) (v : Word) : (s.callTo v).V = s.V := by
  unfold State.callTo; split <;> rfl
@[simp] theorem State.callTo_I (s : State) (v : Word) : (s.callTo v).I = s.I := by
  unfold State.callTo; split <;> rfl
@[simp] theorem State.callTo_DT (s : State) (v : Word) : (s.callTo v).DT = s.DT := by
  unfold State.callTo; split <;> rfl
@[simp] theorem State.callTo_ST (s : State) (v : Word) : (s.callTo v).ST = s.ST := by
  unfold State.callTo; split <;> rfl
@[simp] theorem State.callTo_pix (s : State) (v : Word) : (s.callTo v).pix = s.pix := by
  unfold State.callTo; split <;> rfl
@[simp] theorem State.callTo_key (s : State) (v : Word) : (s.callTo v).key = s.key := by
  unfold State.callTo; split <;> rfl
@[simp] theorem State.callTo_opcode (s : State) (v : Word) : (s.callTo v).opcode = s.opcode := by
  unfold State.callTo; split <;> rfl
@[simp] theorem State.callTo_keyIn (s : State) (v : Word) : (s.callTo v).keyIn = s.keyIn := by
  unfold State.callTo; split <;> rfl
@[simp] theorem State.callTo_rndIn (s : State) (v : Word) : (s.callTo v).rndIn = s.rndIn := by
  unfold State.callTo; split <;> rfl
@[simp] theorem State.callTo_toneReq (s : State) (v : Word) : (s.callTo v).toneReq = s.toneReq := by
  unfold State.callTo; split <;> rfl
@[simp] theorem State.callTo_fresh (s : State) (v : Word) : (s.callTo v).fresh = s.fresh := by
  unfold State.callTo; split <;> rfl
@[simp] theorem State.callTo_params (s : State) (v : Word) : (s.callTo v).params = s.params := by
  unfold State.callTo; split <;> rfl

/-! ## popReturn -/

@[simp] theorem State.popReturn_mem (s : State) : (s.popReturn).mem = s.mem := by
  unfold State.popReturn; split <;> rfl
@[simp] theorem State.popReturn_V (s : State) : (s.popReturn).V = s.V := by
  unfold State.popReturn; split <;> rfl
@[simp] theorem State.popReturn_I (s : State) : (s.popReturn).I = s.I := by
  unfold State.popReturn; split <;> rfl
@[simp] theorem State.popReturn_stack (s : State) : (s.popReturn).stack = s.stack := by
  unfold State.popReturn; split <;> rfl
@[simp] theorem State.popReturn_DT (s : State) : (s.popReturn).DT = s.DT := by
  unfold State.popReturn; split <;> rfl
@[simp] theorem State.popReturn_ST (s : State) : (s.popReturn).ST = s.ST := by
  unfold State.popReturn; split <;> rfl
@[simp] theorem State.popReturn_pix (s : State) : (s.popReturn).pix = s.pix := by
  unfold State.popReturn; split <;> rfl
@[simp] theorem State.popReturn_key (s : State) : (s.popReturn).key = s.key := by
  unfold State.popReturn; split <;> rfl
@[simp] theorem State.popReturn_opcode (s : State) : (s.popReturn).opcode = s.opcode := by
  unfold State.popReturn; split <;> rfl
@[simp] theorem State.popReturn_keyIn (s : State) : (s.popReturn).keyIn = s.keyIn := by
  unfold State.popReturn; split <;> rfl
@[simp] theorem State.popReturn_rndIn (s : State) : (s.popReturn).rndIn = s.rndIn := by
  unfold State.popReturn; split <;> rfl
@[simp] theorem State.popReturn_toneReq (s : State) : (s.popReturn).toneReq = s.toneReq := by
  unfold State.popReturn; split <;> rfl
@[simp] theorem State.popReturn_fresh (s : State) : (s.popReturn).fresh = s.fresh := by
  unfold State.popReturn; split <;> rfl
@[simp] theorem State.popReturn_params (s : State) : (s.popReturn).params = s.params := by
  unfold State.popReturn; split <;> rfl

/-! ## sampleKeys -/

@[simp] theorem State.sampleKeys_mem (s : State) : (s.sampleKeys).mem = s.mem := by
  unfold State.sampleKeys; split <;> rfl
@[simp] theorem State.sampleKeys_V (s : State) : (s.sampleKeys).V = s.V := by
  unfold State.sampleKeys; split <;> rfl
@[simp] theorem State.sampleKeys_I (s : State) : (s.sampleKeys).I = s.I := by
  unfold State.sampleKeys; split <;> rfl
@[simp] theorem State.sampleKeys_pc (s : State) : (s.sampleKeys).pc = s.pc := by
  unfold State.sampleKeys; split <;> rfl
@[simp] theorem State.sampleKeys_stack (s : State) : (s.sampleKeys).stack = s.stack := by
  unfold State.sampleKeys; split <;> rfl
@[simp] theorem State.sampleKeys_sp (s : State) : (s.sampleKeys).sp = s.sp := by
  unfold State.sampleKeys; split <;> rfl
@[simp] theorem State.sampleKeys_DT (s : State) : (s.sampleKeys).DT = s.DT := by
  unfold State.sampleKeys; split <;> rfl
@[simp] theorem State.sampleKeys_ST (s : State) : (s.sampleKeys).ST = s.ST := by
  unfold State.sampleKeys; split <;> rfl
@[simp] theorem State.sampleKeys_pix (s : State) : (s.sampleKeys).pix = s.pix := by
  unfold State.sampleKeys; split <;> rfl
@[simp] theorem State.sampleKeys_opcode (s : State) : (s.sampleKeys).opcode = s.opcode := by
  unfold State.sampleKeys; split <;> rfl
@[simp] theorem State.sampleKeys_rndIn (s : State) : (s.sampleKeys).rndIn = s.rndIn := by
  unfold State.sampleKeys; split <;> rfl
@[simp] theorem State.sampleKeys_toneReq (s : State) : (s.sampleKeys).toneReq = s.toneReq := by
  unfold State.sampleKeys; split <;> rfl
@[simp] theorem State.sampleKeys_event (s : State) : (s.sampleKeys).event = s.event := by
  unfold State.sampleKeys; split <;> rfl
@[simp] theorem State.sampleKeys_fresh (s : State) : (s.sampleKeys).fresh = s.fresh := by
  unfold State.sampleKeys; split <;> rfl
@[simp] theorem State.sampleKeys_params (s : State) : (s.sampleKeys).params = s.params := by
  unfold State.sampleKeys; split <;> rfl

/-! ## Fields an update computes -/

@[simp] theorem State.skipIf_pc (s : State) (c : Bool) : (s.skipIf c).pc = if c then s.pc + 2 else s.pc := by
  cases c <;> rfl

@[simp] theorem State.sampleKeys_key (s : State) : s.sampleKeys.key = s.keyIn.headD s.key := by
  unfold State.sampleKeys; split <;> simp_all

@[simp] theorem State.sampleKeys_keyIn (s : State) : s.sampleKeys.keyIn = s.keyIn.tail := by
  unfold State.sampleKeys; split <;> simp_all

/-! ## beginStep -/

@[simp] theorem State.beginStep_mem (s : State) (w : Word) : (s.beginStep w).mem = s.mem := by simp [State.beginStep]
@[simp] theorem State.beginStep_V (s : State) (w : Word) : (s.beginStep w).V = s.V := by simp [State.beginStep]
@[simp] theorem State.beginStep_I (s : State) (w : Word) : (s.beginStep w).I = s.I := by simp [State.beginStep]
@[simp] theorem State.beginStep_pc (s : State) (w : Word) : (s.beginStep w).pc = s.pc + 2 := by simp [State.beginStep]
@[simp] theorem State.beginStep_stack (s : State) (w : Word) : (s.beginStep w).stack = s.stack := by simp [State.beginStep]
@[simp] theorem State.beginStep_sp (s : State) (w : Word) : (s.beginStep w).sp = s.sp := by simp [State.beginStep]
@[simp] theorem State.beginStep_DT (s : State) (w : Word) : (s.beginStep w).DT = s.DT := by simp [State.beginStep]
@[simp] theorem State.beginStep_ST (s : State) (w : Word) : (s.beginStep w).ST = s.ST := by simp [State.beginStep]
@[simp] theorem State.beginStep_pix (s : State) (w : Word) : (s.beginStep w).pix = s.pix := by simp [State.beginStep]
@[simp] theorem State.beginStep_key (s : State) (w : Word) : (s.beginStep w).key = s.keyIn.headD s.key := by simp [State.beginStep]
@[simp] theorem State.beginStep_opcode (s : State) (w : Word) : (s.beginStep w).opcode = w := by simp [State.beginStep]
@[simp] theorem State.beginStep_keyIn (s : State) (w : Word) : (s.beginStep w).keyIn = s.keyIn.tail := by simp [State.beginStep]
@[simp] theorem State.beginStep_rndIn (s : State) (w : Word) : (s.beginStep w).rndIn = s.rndIn := by simp [State.beginStep]
@[simp] theorem State.beginStep_toneReq (s : State) (w : Word) : (s.beginStep w).toneReq = s.toneReq := by simp [State.beginStep]
@[simp] theorem State.beginStep_event (s : State) (w : Word) : (s.beginStep w).event = none := by simp [State.beginStep]
@[simp] theorem State.beginStep_fresh (s : State) (w : Word) : (s.beginStep w).fresh = s.fresh := by simp [State.beginStep]
@[simp] theorem State.beginStep_params (s : State) (w : Word) : (s.beginStep w).params = s.params := by simp [State.beginStep]

/-! ## Reading a byte through an update that leaves memory alone -/

theorem State.byteAt_congr {s t : State} (hm : t.mem = s.mem) (hp : t.params = s.params) (a : Nat) :
    t.byteAt a = s.byteAt a := by
  simp [State.byteAt, hm, hp]

/-- An update of V alone leaves a register it does not write. -/
theorem get_set_ne (V : Vector Byte 16) (x r : Reg) (v : Byte) (h : r ≠ x) : (V.set x v)[r] = V[r] := by
  have : x.val ≠ r.val := fun e => h (Fin.ext e.symm)
  simp [Fin.getElem_fin, this]

@[simp] theorem get_set_eq (V : Vector Byte 16) (x : Reg) (v : Byte) : (V.set x v)[x] = v := by
  simp [Fin.getElem_fin]

/-- A frame from one equation: `t` is `s` but for V, memory, and the items `w` allows to change. -/
theorem Frame.of_masked {w : Writes} {s t : State} (hV : ∀ r : Reg, r ∉ w.regs → t.V[r] = s.V[r])
    (hm : ∀ a : Nat, a ∉ w.cells → t.byteAt a = s.byteAt a)
    (h : t = { s with
      mem := t.mem, V := t.V, I := if w.I then t.I else s.I, pc := if w.pc then t.pc else s.pc
      stack := if w.stack then t.stack else s.stack, sp := if w.sp then t.sp else s.sp
      DT := if w.DT then t.DT else s.DT, ST := if w.ST then t.ST else s.ST
      pix := if w.pix then t.pix else s.pix, event := if w.event then t.event else s.event
      rndIn := if w.rndIn then t.rndIn else s.rndIn }) : Frame w s t where
  regs := hV
  cells := hm
  I hw := by simpa [hw] using congrArg State.I h
  pc hw := by simpa [hw] using congrArg State.pc h
  stack hw := by simpa [hw] using congrArg State.stack h
  sp hw := by simpa [hw] using congrArg State.sp h
  DT hw := by simpa [hw] using congrArg State.DT h
  ST hw := by simpa [hw] using congrArg State.ST h
  pix hw := by simpa [hw] using congrArg State.pix h
  event hw := by simpa [hw] using congrArg State.event h
  rndIn hw := by simpa [hw] using congrArg State.rndIn h
  key := (congrArg State.key h :)
  opcode := (congrArg State.opcode h :)
  keyIn := (congrArg State.keyIn h :)
  toneReq := (congrArg State.toneReq h :)
  fresh := (congrArg State.fresh h :)
  params := (congrArg State.params h :)

end Sys2Proof.Machine
end

