-- ==== Sys2Proof/Laws/Memory.lean ====
section
/-! SUPPORT. The laws of memory: a read after a write, and that every memory operation keeps the canonical form. -/

namespace Sys2Proof.Machine

open Sys2Proof.Config

/-! ## Read after write -/

theorem Memory.read_insert (f : Font) (m : Memory) (a b : Nat) (v : Byte) :
    Memory.read f (Memory.insert a v m) b = if b = a then v else Memory.read f m b := by
  induction m with
  | nil => simp [Memory.insert, Memory.read]
  | cons c m ih =>
    unfold Memory.insert
    split
    · simp [Memory.read]
    · split
      · rename_i _ h
        subst h
        by_cases hb : b = c.1 <;> simp [Memory.read, hb]
      · rename_i h₁ h₂
        simp only [Memory.read, ih]
        by_cases hb : b = a
        · subst hb; simp [h₂]
        · simp [hb]

theorem Memory.read_erase (f : Font) (m : Memory) (a b : Nat) :
    Memory.read f (m.filter (fun c => c.1 ≠ a)) b = if b = a then unlisted f a else Memory.read f m b := by
  induction m with
  | nil => by_cases hb : b = a <;> simp [Memory.read, hb]
  | cons c m ih =>
    by_cases hc : c.1 = a
    · rw [List.filter_cons_of_neg (by simp [hc]), ih]
      by_cases hb : b = a
      · simp [hb]
      · simp [Memory.read, hc, hb]
    · rw [List.filter_cons_of_pos (by simpa using hc)]
      simp only [Memory.read, ih]
      by_cases hb : b = a
      · subst hb; simp [Ne.symm hc]
      · simp [hb]

/-- What a write does to every read, on any memory. -/
theorem Memory.read_write (f : Font) (m : Memory) (a b : Nat) (v : Byte) :
    Memory.read f (Memory.write f m a v) b = if b = a then v else Memory.read f m b := by
  unfold Memory.write
  split
  · rename_i h; rw [Memory.read_erase, h]
  · exact Memory.read_insert f m a b v

theorem State.byteAt_putByte (s : State) (a b : Nat) (v : Byte) :
    (s.putByte a v).byteAt b = if b = a then v else s.byteAt b :=
  Memory.read_write s.params.font s.mem a b v

/-! ## Several writes -/

@[simp] theorem State.putBytes_nil (s : State) : s.putBytes [] = s := rfl

@[simp] theorem State.putBytes_cons (s : State) (c : Nat × Byte) (cs : List (Nat × Byte)) :
    s.putBytes (c :: cs) = (s.putByte c.1 c.2).putBytes cs := rfl

/-- Several writes change memory only. -/
theorem State.putBytes_eq (s : State) (cs : List (Nat × Byte)) : s.putBytes cs = { s with mem := (s.putBytes cs).mem } := by
  induction cs generalizing s with
  | nil => rfl
  | cons c cs ih => rw [putBytes_cons, ih]; rfl

theorem State.byteAt_putBytes_of_notMem (s : State) (cs : List (Nat × Byte)) (a : Nat) (h : a ∉ cs.map Prod.fst) :
    (s.putBytes cs).byteAt a = s.byteAt a := by
  induction cs generalizing s with
  | nil => rfl
  | cons c cs ih =>
    simp only [List.map_cons, List.mem_cons, not_or] at h
    rw [putBytes_cons, ih _ h.2, byteAt_putByte, if_neg h.1]

/-- Writes to distinct cells: each cell listed holds its byte. -/
theorem State.byteAt_putBytes_of_mem (s : State) (cs : List (Nat × Byte)) (hd : (cs.map Prod.fst).Nodup) (a : Nat)
    (v : Byte) (h : (a, v) ∈ cs) : (s.putBytes cs).byteAt a = v := by
  induction cs generalizing s with
  | nil => cases h
  | cons c cs ih =>
    rw [List.map_cons, List.nodup_cons] at hd
    rw [putBytes_cons]
    rcases List.mem_cons.1 h with h | h
    · subst h
      rw [byteAt_putBytes_of_notMem _ _ _ hd.1, byteAt_putByte, if_pos rfl]
    · exact ih _ hd.2 h

/-! ## The canonical form -/

theorem Memory.mem_insert {a : Nat} {v : Byte} {m : Memory} {c : Host.Cell} (h : c ∈ Memory.insert a v m) :
    c = (a, v) ∨ c ∈ m := by
  induction m with
  | nil => simpa [Memory.insert] using h
  | cons d m ih =>
    unfold Memory.insert at h
    split at h
    · simpa using h
    · split at h
      · rcases List.mem_cons.1 h with h | h
        · exact .inl h
        · exact .inr (List.mem_cons_of_mem _ h)
      · rcases List.mem_cons.1 h with h | h
        · exact .inr (h ▸ List.mem_cons_self)
        · exact (ih h).imp_right (List.mem_cons_of_mem _)

theorem Memory.insert_rising {a : Nat} {v : Byte} {m : Memory} (h : m.Pairwise (fun c d => c.1 < d.1)) :
    (Memory.insert a v m).Pairwise (fun c d => c.1 < d.1) := by
  induction m with
  | nil => simp [Memory.insert]
  | cons c m ih =>
    have ⟨hc, hm⟩ := List.pairwise_cons.1 h
    unfold Memory.insert
    split
    · rename_i ha
      refine List.pairwise_cons.2 ⟨fun d hd => ?_, h⟩
      rcases List.mem_cons.1 hd with hd | hd
      · exact hd ▸ ha
      · exact lt_trans ha (hc d hd)
    · split
      · rename_i ha
        exact List.pairwise_cons.2 ⟨fun d hd => by simpa [ha] using hc d hd, hm⟩
      · refine List.pairwise_cons.2 ⟨fun d hd => ?_, ih hm⟩
        rcases Memory.mem_insert hd with hd | hd
        · subst hd; simp only; omega
        · exact hc d hd

/-- A write to a cell below 4096 keeps the canonical form. -/
theorem Memory.write_wf {f : Font} {m : Memory} {a : Nat} {v : Byte} (h : Memory.wf f m) (ha : a < memSize) :
    Memory.wf f (Memory.write f m a v) := by
  unfold Memory.write
  split
  · exact ⟨h.1.filter _, fun c hc => h.2 c (List.mem_of_mem_filter hc)⟩
  · rename_i hv
    refine ⟨Memory.insert_rising h.1, fun c hc => ?_⟩
    rcases Memory.mem_insert hc with hc | hc
    · subst hc; exact ⟨ha, hv⟩
    · exact h.2 c hc

theorem State.putByte_inv {s : State} {a : Nat} {v : Byte} (h : s.Inv) (ha : a < memSize) : (s.putByte a v).Inv :=
  Memory.write_wf h ha

theorem State.putBytes_inv {s : State} {cs : List (Nat × Byte)} (h : s.Inv) (hc : ∀ c ∈ cs, c.1 < memSize) :
    (s.putBytes cs).Inv := by
  induction cs generalizing s with
  | nil => exact h
  | cons c cs ih =>
    exact ih (s := s.putByte c.1 c.2) (State.putByte_inv h (hc c List.mem_cons_self))
      (fun d hd => hc d (List.mem_cons_of_mem _ hd))

/-- The invariant depends on memory and the font alone. -/
theorem State.Inv.congr {s t : State} (h : s.Inv) (hm : t.mem = s.mem) (hp : t.params = s.params) : t.Inv := by
  unfold State.Inv at *; rwa [hm, hp]

end Sys2Proof.Machine
end

