-- ==== Sys2Proof/Laws/Ops.lean ====
section
/-! SUPPORT. One lemma per shared operation that says all it can do: the addresses of an access, loads, stores, the fetch, the step. -/

namespace Sys2Proof.Machine

open Sys2Proof.Config

/-! ## Addresses -/

theorem effAddr_eq (p : OobPolicy) (k : AccessKind) (a : Nat) :
    effAddr p k a = if p = .wrap12 ∨ a < memSize then .ok (a % memSize) else .error (.addressOutOfRange a k) := by
  unfold effAddr
  by_cases h : a < memSize
  · simp [h, Nat.mod_eq_of_lt h]
  · cases p <;> simp [h]

/-- The addresses of an access all reach a cell exactly when the policy wraps or none is 4096 or more; the cells are
then the addresses modulo 4096. -/
theorem effAddrs_ok {p : OobPolicy} {k : AccessKind} {a n : Nat} (h : p = .wrap12 ∨ n = 0 ∨ a + n ≤ memSize) :
    effAddrs p k a n = .ok ((List.range n).map (fun j => (a + j) % memSize)) := by
  induction n generalizing a with
  | zero => rfl
  | succ n ih =>
    have h0 : p = .wrap12 ∨ a < memSize := h.imp_right (by omega)
    have h1 : p = .wrap12 ∨ n = 0 ∨ a + 1 + n ≤ memSize := h.imp_right (by omega)
    rw [effAddrs, effAddr_eq, if_pos h0, ih h1, List.range_succ_eq_map]
    simp [Function.comp_def, Nat.add_assoc, Nat.add_comm 1]

/-- Otherwise the first address out of range is reported. -/
theorem effAddrs_error {k : AccessKind} {a n : Nat} (hn : 0 < n) (h : memSize < a + n) :
    effAddrs .fault k a n = .error (.addressOutOfRange (max a memSize) k) := by
  induction n generalizing a with
  | zero => omega
  | succ n ih =>
    by_cases ha : a < memSize
    · rw [effAddrs, effAddr_eq, if_pos (.inr ha)]
      simp only
      rw [ih (by omega) (by omega), max_eq_right (by omega), max_eq_right (by omega)]
    · rw [effAddrs, effAddr_eq, if_neg (by simp [ha]), max_eq_left (by omega)]

/-- The two cases together. -/
theorem effAddrs_cases (p : OobPolicy) (k : AccessKind) (a n : Nat) :
    ((p = .wrap12 ∨ n = 0 ∨ a + n ≤ memSize) ∧
      effAddrs p k a n = .ok ((List.range n).map (fun j => (a + j) % memSize))) ∨
    (p = .fault ∧ 0 < n ∧ memSize < a + n ∧
      effAddrs p k a n = .error (.addressOutOfRange (max a memSize) k)) := by
  by_cases h : p = .wrap12 ∨ n = 0 ∨ a + n ≤ memSize
  · exact .inl ⟨h, effAddrs_ok h⟩
  · rw [not_or, not_or] at h
    have hp : p = .fault := by cases p <;> simp_all
    exact .inr ⟨hp, by omega, by omega, hp ▸ effAddrs_error (by omega) (by omega)⟩

/-- Sixteen consecutive addresses, or fewer, reach distinct cells, also where they wrap. -/
theorem cells_nodup (a n : Nat) (hn : n ≤ memSize) : ((List.range n).map (fun j => (a + j) % memSize)).Nodup := by
  refine List.Nodup.map_on ?_ List.nodup_range
  intro i hi j hj h
  rw [List.mem_range] at hi hj
  simp only [memSize] at *
  omega

/-! ## Loads and stores -/

theorem loadBytes_ok {s : State} {k : AccessKind} {a n : Nat} (h : s.reaches a n) :
    s.loadBytes k a n = .ok ((List.range n).map (fun j => s.byteAt ((a + j) % memSize))) := by
  simp [State.loadBytes, effAddrs_ok h, Function.comp_def]

/-- A load either reads the cells in order or faults with the first address out of range. -/
theorem loadBytes_cases (s : State) (k : AccessKind) (a n : Nat) :
    (s.reaches a n ∧ s.loadBytes k a n = .ok ((List.range n).map (fun j => s.byteAt ((a + j) % memSize)))) ∨
    (s.params.oob = .fault ∧ 0 < n ∧ memSize < a + n ∧
      s.loadBytes k a n = .error (.addressOutOfRange (max a memSize) k)) := by
  rcases effAddrs_cases s.params.oob k a n with ⟨h, e⟩ | ⟨h, hn, ha, e⟩
  · exact .inl ⟨h, loadBytes_ok h⟩
  · exact .inr ⟨h, hn, ha, by simp [State.loadBytes, e]⟩

/-- The cells of a store with their bytes. -/
def storeCells (a : Nat) (bs : List Byte) : List (Nat × Byte) :=
  ((List.range bs.length).map (fun j => (a + j) % memSize)).zip bs

theorem storeCells_fst (a : Nat) (bs : List Byte) :
    (storeCells a bs).map Prod.fst = (List.range bs.length).map (fun j => (a + j) % memSize) := by
  rw [storeCells, List.map_fst_zip (by simp)]

theorem mem_storeCells (a : Nat) (bs : List Byte) (j : Nat) (h : j < bs.length) :
    ((a + j) % memSize, bs[j]) ∈ storeCells a bs := by
  have hj : j < (storeCells a bs).length := by simp [storeCells, h]
  have := List.getElem_mem hj
  simpa [storeCells, List.getElem_zip] using this

/-- A store either writes its cells, all at once, or faults with the first address out of range. -/
theorem storeBytes_cases (s : State) (a : Nat) (bs : List Byte) :
    (s.reaches a bs.length ∧ s.storeBytes a bs = .ok (s.putBytes (storeCells a bs))) ∨
    (s.params.oob = .fault ∧ 0 < bs.length ∧ memSize < a + bs.length ∧
      s.storeBytes a bs = .error (.addressOutOfRange (max a memSize) .write)) := by
  rcases effAddrs_cases s.params.oob .write a bs.length with ⟨h, e⟩ | ⟨h, hn, ha, e⟩
  · exact .inl ⟨h, by simp [State.storeBytes, e, storeCells]⟩
  · exact .inr ⟨h, hn, ha, by simp [State.storeBytes, e]⟩

/-- What a store that completes leaves: its cells hold its bytes. -/
theorem byteAt_storeCells (s : State) (a : Nat) (bs : List Byte) (hn : bs.length ≤ memSize) (j : Nat)
    (h : j < bs.length) : (s.putBytes (storeCells a bs)).byteAt ((a + j) % memSize) = bs[j] :=
  State.byteAt_putBytes_of_mem s _ (by rw [storeCells_fst]; exact cells_nodup a _ hn) _ _ (mem_storeCells a bs j h)

/-- A store changes nothing but the cells it writes. -/
theorem putBytes_frame (s : State) (cs : List (Nat × Byte)) : Frame { cells := cs.map Prod.fst } s (s.putBytes cs) := by
  have hc := State.byteAt_putBytes_of_notMem s cs
  obtain ⟨m, h⟩ : ∃ m, s.putBytes cs = { s with mem := m } := ⟨_, State.putBytes_eq s cs⟩
  rw [h] at hc ⊢
  exact Frame.of_masked (fun _ _ => rfl) hc rfl

/-! ## Registers -/

/-- `V[k], V[k+1], ...` take the bytes; the other registers stay. -/
theorem setRegsFrom_get (V : Vector Byte 16) (k : Nat) (bs : List Byte) (r : Reg) :
    (setRegsFrom V k bs)[r] = if h : k ≤ r.val ∧ r.val < k + bs.length then bs[r.val - k] else V[r] := by
  induction bs generalizing V k with
  | nil =>
    rw [setRegsFrom, dif_neg]
    simp only [List.length_nil]; omega
  | cons b bs ih =>
    rw [setRegsFrom]
    by_cases hk : k < 16
    · rw [dif_pos hk, ih]
      by_cases h1 : k + 1 ≤ r.val ∧ r.val < k + 1 + bs.length
      · rw [dif_pos h1, dif_pos (by simp only [List.length_cons]; omega)]
        have : r.val - k = (r.val - (k + 1)) + 1 := by omega
        simp [this]
      · rw [dif_neg h1]
        by_cases h2 : k = r.val
        · rw [dif_pos (by simp only [List.length_cons]; omega)]
          simp [h2]
        · rw [dif_neg (by simp only [List.length_cons]; omega)]
          simp [Fin.getElem_fin, h2]
    · rw [dif_neg hk, dif_neg (by omega)]

/-! ## The fetch -/

theorem fetch_ok {s : State} (h : s.reaches s.pc.toNat 2) :
    s.fetch = .ok (wordOfBytes (s.byteAt (s.pc.toNat % memSize)) (s.byteAt ((s.pc.toNat + 1) % memSize))) := by
  have h0 : s.params.oob = .wrap12 ∨ s.pc.toNat < memSize := h.imp_right (by omega)
  have h1 : s.params.oob = .wrap12 ∨ s.pc.toNat + 1 < memSize := h.imp_right (by omega)
  simp [State.fetch, effAddr_eq, h0, h1]

/-- A fetch either reads the two cells at pc and pc + 1 or faults with the first address out of range. -/
theorem fetch_cases (s : State) :
    (s.reaches s.pc.toNat 2 ∧
      s.fetch = .ok (wordOfBytes (s.byteAt (s.pc.toNat % memSize)) (s.byteAt ((s.pc.toNat + 1) % memSize)))) ∨
    (s.params.oob = .fault ∧ memSize < s.pc.toNat + 2 ∧
      s.fetch = .error (.addressOutOfRange (max s.pc.toNat memSize) .fetch)) := by
  by_cases h : s.reaches s.pc.toNat 2
  · exact .inl ⟨h, fetch_ok h⟩
  · have h' := h
    rw [State.reaches, not_or, not_or] at h'
    have hp : s.params.oob = .fault := by cases hq : s.params.oob <;> simp_all
    refine .inr ⟨hp, by omega, ?_⟩
    by_cases h0 : s.pc.toNat < memSize
    · rw [max_eq_right (by omega)]
      have : s.pc.toNat + 1 = memSize := by omega
      simp [State.fetch, effAddr_eq, hp, h0, this]
    · rw [max_eq_left (by omega)]
      simp [State.fetch, effAddr_eq, hp, h0]

/-! ## The step -/

/-- What a step that completes went through (R80): a fetch, the execute phase, the tick. -/
theorem step_next {s t : State} (h : step s = .next t) :
    ∃ (w : Word) (u : State), s.fetch = .ok w ∧ exec (decodeWord w) (s.beginStep w) = .next u ∧ t = u.tick := by
  unfold step at h
  split at h
  · cases h
  · rename_i w hw
    split at h
    · rename_i u hu
      cases h
      exact ⟨w, u, hw, hu, rfl⟩
    · cases h
    · cases h

/-- A step whose fetch and execute phase complete. -/
theorem step_of_exec {s u : State} {w : Word} (hw : s.fetch = .ok w)
    (hu : exec (decodeWord w) (s.beginStep w) = .next u) : step s = .next u.tick := by
  simp [step, hw, hu]

end Sys2Proof.Machine
end

