-- ==== Sys2Proof/Laws/Draw.lean ====
section
/-! SUPPORT. What drawing a sprite does, pixel by pixel (44_display.md R161): each cell of the sprite is toggled once, and a collision is a cell of the sprite that was on. -/

namespace Sys2Proof.Machine

open Sys2Proof.Config

/-! ## Pixels -/

theorem Screen.ext {p q : Screen} (h : ∀ c : Cell, Screen.get p c = Screen.get q c) : p = q := by
  apply Vector.ext; intro i hi
  apply Vector.ext; intro j hj
  simpa [Screen.get] using h (⟨i, hi⟩, ⟨j, hj⟩)

theorem Screen.get_toggle (p : Screen) (c d : Cell) :
    Screen.get (Screen.toggle p c) d = if d = c then !(Screen.get p c) else Screen.get p d := by
  obtain ⟨r, k⟩ := c
  obtain ⟨r', k'⟩ := d
  simp only [Screen.get, Screen.toggle, Fin.getElem_fin, Vector.getElem_set, Prod.mk.injEq, Fin.ext_iff]
  by_cases hr : r.val = r'.val
  · by_cases hk : k.val = k'.val
    · simp [hr, hk]
    · simp [hr, hk, Ne.symm hk]
  · simp [hr, Ne.symm hr]

@[simp] theorem Screen.get_clear (c : Cell) : Screen.get Screen.clear c = false := by
  simp [Screen.get, Screen.clear]

/-! ## Drawing a list of distinct cells -/

theorem foldl_plot_fst (cells : List Cell) (p : Screen) (hit : Bool) (hd : cells.Nodup) (d : Cell) :
    Screen.get (cells.foldl plot (p, hit)).1 d = if d ∈ cells then !(Screen.get p d) else Screen.get p d := by
  induction cells generalizing p hit with
  | nil => simp
  | cons c cs ih =>
    have ⟨hc, hcs⟩ := List.nodup_cons.1 hd
    rw [List.foldl_cons, plot, ih _ _ hcs]
    simp only [Screen.get_toggle, List.mem_cons]
    by_cases hdc : d = c
    · subst hdc; simp [hc]
    · simp [hdc]

theorem foldl_plot_snd (cells : List Cell) (p : Screen) (hit : Bool) (hd : cells.Nodup) :
    (cells.foldl plot (p, hit)).2 = (hit || cells.any (Screen.get p)) := by
  induction cells generalizing p hit with
  | nil => simp
  | cons c cs ih =>
    have ⟨hc, hcs⟩ := List.nodup_cons.1 hd
    have hsame : cs.any (Screen.get (Screen.toggle p c)) = cs.any (Screen.get p) := by
      rw [Bool.eq_iff_iff, List.any_eq_true, List.any_eq_true]
      refine exists_congr fun d => and_congr_right fun hm => ?_
      rw [Screen.get_toggle, if_neg (by rintro rfl; exact hc hm)]
    rw [List.foldl_cons, plot, ih _ _ hcs, hsame, List.any_cons, Bool.or_assoc]

/-- Drawing distinct cells toggles each of them and nothing else. -/
theorem drawCells_get (p : Screen) {cells : List Cell} (hd : cells.Nodup) (d : Cell) :
    Screen.get (drawCells p cells).1 d = if d ∈ cells then !(Screen.get p d) else Screen.get p d :=
  foldl_plot_fst cells p false hd d

/-- Drawing distinct cells collides exactly when one of them was on before. -/
theorem drawCells_hit (p : Screen) {cells : List Cell} (hd : cells.Nodup) :
    (drawCells p cells).2 = cells.any (Screen.get p) := by
  simpa [drawCells] using foldl_plot_snd cells p false hd

/-! ## The cells of a sprite -/

theorem mem_rowCells {x0 y0 b : Byte} {r : Nat} {d : Cell} :
    d ∈ rowCells x0 y0 r b ↔ ∃ c, c < 8 ∧ b.getLsbD (7 - c) = true ∧ d = spriteCell x0 y0 r c := by
  simp only [rowCells, List.mem_map, List.mem_filter, List.mem_range, and_assoc, eq_comm (a := d)]

theorem mem_spriteCells {x0 y0 : Byte} {bs : List Byte} {r : Nat} {d : Cell} :
    d ∈ spriteCells x0 y0 r bs ↔
      ∃ (k c : Nat) (h : k < bs.length), c < 8 ∧ bs[k].getLsbD (7 - c) = true ∧ d = spriteCell x0 y0 (r + k) c := by
  induction bs generalizing r with
  | nil => simp [spriteCells]
  | cons b bs ih =>
    rw [spriteCells, List.mem_append, mem_rowCells, ih]
    constructor
    · rintro (⟨c, hc, hb, hd⟩ | ⟨k, c, hk, hc, hb, hd⟩)
      · exact ⟨0, c, by simp, hc, hb, hd⟩
      · exact ⟨k + 1, c, by simpa using hk, hc, hb, by rw [hd]; congr 1; omega⟩
    · rintro ⟨k, c, hk, hc, hb, hd⟩
      cases k with
      | zero => exact .inl ⟨c, hc, hb, hd⟩
      | succ k => exact .inr ⟨k, c, by simpa using hk, hc, hb, by rw [hd]; congr 1; omega⟩

theorem spriteCell_inj {x0 y0 : Byte} {r r' c c' : Nat} (hr : r < r' + 32) (hr' : r' < r + 32) (hc : c < 8) (hc' : c' < 8)
    (h : spriteCell x0 y0 r c = spriteCell x0 y0 r' c') : r = r' ∧ c = c' := by
  simp only [spriteCell, Prod.mk.injEq, Fin.mk.injEq] at h
  omega

/-- R161's derived remark: within one draw no cell is toggled twice. -/
theorem spriteCells_nodup (x0 y0 : Byte) (bs : List Byte) (r : Nat) (h : bs.length ≤ 32) :
    (spriteCells x0 y0 r bs).Nodup := by
  induction bs generalizing r with
  | nil => exact List.nodup_nil
  | cons b bs ih =>
    simp only [List.length_cons] at h
    rw [spriteCells, List.nodup_append]
    refine ⟨?_, ih _ (by omega), ?_⟩
    · refine List.Nodup.map_on ?_ (List.nodup_range.filter _)
      intro c hc c' hc' he
      simp only [List.mem_filter, List.mem_range] at hc hc'
      exact (spriteCell_inj (by omega) (by omega) hc.1 hc'.1 he).2
    · rintro d hd d' hd' rfl
      obtain ⟨c, hc, -, e⟩ := mem_rowCells.1 hd
      obtain ⟨k, c', hk, hc', -, e'⟩ := mem_spriteCells.1 hd'
      have := (spriteCell_inj (r := r) (r' := r + 1 + k) (by omega) (by omega) hc hc' (e.symm.trans e')).1
      omega

/-! ## The draw -/

/-- The cells `Dxyn` toggles from a state. -/
def State.drawnCells (s : State) (x y : Reg) (n : Nibble) : List Cell :=
  spriteCells (s.getV x) (s.getV y) 0 ((List.range n.val).map (fun j => s.byteAt ((s.I.toNat + j) % memSize)))

theorem State.drawnCells_nodup (s : State) (x y : Reg) (n : Nibble) : (s.drawnCells x y n).Nodup :=
  spriteCells_nodup _ _ _ _ (by have := n.isLt; simp; omega)

/-- `Dxyn` either draws its cells and writes VF, or faults with the first address out of range. -/
theorem execDrw_cases (x y : Reg) (n : Nibble) (s : State) :
    (s.reaches s.I.toNat n.val ∧ execDrw x y n s =
      .next ((s.setPix (drawCells s.pix (s.drawnCells x y n)).1).setV VF
        (flagByte ((s.drawnCells x y n).any (Screen.get s.pix))))) ∨
    (s.params.oob = .fault ∧ 0 < n.val ∧ memSize < s.I.toNat + n.val ∧
      execDrw x y n s = .fault (.addressOutOfRange (max s.I.toNat memSize) .read)) := by
  rcases loadBytes_cases s .read s.I.toNat n.val with ⟨h, e⟩ | ⟨h, hn, ha, e⟩
  · refine .inl ⟨h, ?_⟩
    rw [← drawCells_hit s.pix (s.drawnCells_nodup x y n)]
    simp only [execDrw, e]
    rfl
  · exact .inr ⟨h, hn, ha, by simp only [execDrw, e]⟩

end Sys2Proof.Machine
end

