-- ==== Sys2Proof/Laws/Frames.lean ====
section
/-! SUPPORT. One lemma per shared update of the execute phase: what it gives, and the frame of what it leaves alone. -/

namespace Sys2Proof.Machine

open Sys2Proof.Config

/-! ## Registers and the flag -/

/-- Writing a register leaves every other register and every other item. -/
theorem setV_frame (s : State) (x : Reg) (v : Byte) : Frame { regs := [x] } s (s.setV x v) := by
  refine Frame.of_masked (fun r hr => ?_) (fun _ _ => rfl) rfl
  rw [State.setV_V, get_set_ne _ _ _ _ (by simpa using hr)]

@[simp] theorem getElem_setV (s : State) (x : Reg) (v : Byte) : (s.setV x v).V[x] = v := by
  rw [State.setV_V, get_set_eq]

/-- Writing a register and the flag leaves every other register and every other item. -/
theorem setVFlag_frame (s : State) (x : Reg) (v : Byte) (c : Bool) :
    Frame { regs := [x, VF] } s (s.setVFlag x v c) := by
  refine Frame.of_masked (fun r hr => ?_) (fun _ _ => rfl) rfl
  simp only [List.mem_cons, List.not_mem_nil, or_false, not_or] at hr
  rw [State.setVFlag_V, get_set_ne _ _ _ _ hr.2, get_set_ne _ _ _ _ hr.1]

/-- The flag stands in VF, whatever register the result goes to (R132). -/
theorem setVFlag_VF (s : State) (x : Reg) (v : Byte) (c : Bool) : (s.setVFlag x v c).V[VF] = flagByte c := by
  rw [State.setVFlag_V, get_set_eq]

/-- The result stands in its register when that is not VF. -/
theorem setVFlag_result (s : State) (x : Reg) (v : Byte) (c : Bool) (hx : x ≠ VF) : (s.setVFlag x v c).V[x] = v := by
  rw [State.setVFlag_V, get_set_ne _ _ _ _ hx, get_set_eq]

theorem toNat_flagByte (c : Bool) : (flagByte c).toNat = if c then 1 else 0 := by cases c <;> rfl

theorem length_regsUpTo (s : State) (x : Reg) : (s.regsUpTo x).length = x.val + 1 := by
  simp [State.regsUpTo]

/-! ## The pc -/

theorem toNat_skipIf_pc (s : State) (c : Bool) :
    (s.skipIf c).pc.toNat = if c then (s.pc.toNat + 2) % 65536 else s.pc.toNat := by
  cases c <;> simp [State.skipIf]

theorem skipIf_frame (s : State) (c : Bool) : Frame { pc := true } s (s.skipIf c) := by
  cases c <;> exact Frame.of_masked (fun _ _ => rfl) (fun _ _ => rfl) rfl

/-! ## Stores and loads as outcomes -/

/-- A store that completes wrote its cells and had no address out of range. -/
theorem outcome_storeBytes_next {s t : State} {a : Nat} {bs : List Byte} (h : outcome (s.storeBytes a bs) = .next t) :
    t = s.putBytes (storeCells a bs) ∧ s.reaches a bs.length := by
  rcases storeBytes_cases s a bs with ⟨hr, e⟩ | ⟨_, _, _, e⟩ <;> rw [e] at h <;> cases h
  exact ⟨rfl, hr⟩

/-- No address of an access is out of range, or the policy is `fault` and one is. -/
theorem State.reaches_or (s : State) (a n : Nat) :
    s.reaches a n ∨ (s.params.oob = .fault ∧ 0 < n ∧ memSize < a + n) := by
  rcases effAddrs_cases s.params.oob .read a n with ⟨h, -⟩ | ⟨h, hn, ha, -⟩
  · exact .inl h
  · exact .inr ⟨h, hn, ha⟩

theorem State.not_reaches {s : State} {a n : Nat} (ho : s.params.oob = .fault) (hn : 0 < n) (ha : memSize < a + n) :
    ¬ s.reaches a n := by
  rintro (h | h | h)
  · rw [ho] at h; cases h
  · omega
  · omega

/-- A store whose addresses raise no fault completes. -/
theorem outcome_storeBytes {s : State} {a : Nat} {bs : List Byte} (h : s.reaches a bs.length) :
    outcome (s.storeBytes a bs) = .next (s.putBytes (storeCells a bs)) := by
  rcases storeBytes_cases s a bs with ⟨-, e⟩ | ⟨ho, h0, hl, -⟩
  · rw [e]; rfl
  · exact absurd h (State.not_reaches ho h0 hl)

/-! ## Keys -/

/-- The two ways a key number is turned away from its slot (R177). -/
theorem keyIndex_error {p : KeyIndexPolicy} {v : Byte} {f : Fault} (h : keyIndex p v = .error f) :
    f = .keyIndexOutOfRange v ∧ 15 < v.toNat ∧ p = .fault := by
  unfold keyIndex at h
  split at h
  · cases h
  · cases p <;> simp at h
    exact ⟨h.symm, by omega, rfl⟩

theorem mem_keysDown (key : Keypad) (k : Key) : k ∈ keysDown key ↔ key[k] = true := by
  simp [keysDown]

theorem keysDown_rising (key : Keypad) : (keysDown key).Pairwise (· < ·) :=
  (List.pairwise_lt_finRange 16).filter _

/-! ## Timers -/

/-- A timer goes down by one and stops at 0. -/
theorem toNat_countDown (t : Byte) : (countDown t).toNat = t.toNat - 1 := by
  unfold countDown
  split
  · rename_i h; simp [h]
  · rename_i h
    have h0 : t.toNat ≠ 0 := fun e => h (BitVec.eq_of_toNat_eq e)
    have := t.isLt
    simp [BitVec.toNat_sub]; omega

/-! ## Loading -/

/-- The cells of a ROM image are consecutive. -/
theorem romCells_fst (a : Nat) (bs : List Byte) :
    (romCells a bs).map Prod.fst = (List.range bs.length).map (fun k => a + k) := by
  induction bs generalizing a with
  | nil => rfl
  | cons b bs ih => simp [romCells, ih, List.range_succ_eq_map, Function.comp_def, Nat.add_assoc, Nat.add_comm 1]

theorem mem_romCells (a : Nat) (bs : List Byte) (k : Nat) (h : k < bs.length) : (a + k, bs[k]) ∈ romCells a bs := by
  induction bs generalizing a k with
  | nil => simp at h
  | cons b bs ih =>
    cases k with
    | zero => simp [romCells]
    | succ k =>
      have := ih (a + 1) k (by simpa using h)
      rw [show a + (k + 1) = a + 1 + k by omega]
      exact List.mem_cons_of_mem _ this

/-- A ROM that fits is copied, and nothing is signalled. -/
theorem load_fits {s : State} {bytes : List Byte} (h : bytes.length ≤ romMax) :
    s.load bytes = (s.putBytes (romCells progBase bytes), none) := by
  rw [State.load, if_neg (by omega)]

/-- A ROM that does not fit leaves the Machine as it was. -/
theorem load_too_large {s : State} {bytes : List Byte} (h : romMax < bytes.length) :
    s.load bytes = (s, some .romTooLarge) := by
  rw [State.load, if_pos h]

@[simp] theorem Life.machine_absent : Life.absent.machine = none := rfl
@[simp] theorem Life.machine_built (s : State) : (Life.built s).machine = some s := rfl
@[simp] theorem Life.machine_running (s : State) : (Life.running s).machine = some s := rfl
@[simp] theorem Life.machine_failed (s : State) (e : LoadError) : (Life.failed s e).machine = some s := rfl
@[simp] theorem Life.machine_faulted (f : Fault) : (Life.faulted f).machine = none := rfl

/-! ## Runs -/

/-- The first step of a run of any core, when it completes. -/
theorem run_of_next (M : Host.Core) {k : Nat} {s t : M.State} (h : M.step s = .next t) :
    M.run (k + 1) s = M.run k t := by
  rw [Host.Core.run, h]

/-- A run that completes took its first step. -/
theorem run_next_inv (M : Host.Core) {k : Nat} {s t : M.State} (h : M.run (k + 1) s = .next t) :
    ∃ u, M.step s = .next u ∧ M.run k u = .next t := by
  rw [Host.Core.run] at h
  cases hs : M.step s with
  | next u => rw [hs] at h; exact ⟨u, rfl, h⟩
  | fault f => rw [hs] at h; cases h
  | refused f => rw [hs] at h; cases h

end Sys2Proof.Machine
end

