-- ==== Sys2Proof/Laws/PerInstr.lean ====
section
/-! SUPPORT. One fact per constructor of Instr, family by family, for statements about all instructions. -/

/-! ## OwnRow: the word an instruction encodes to selects that instruction's row of the opcode map (30_encoding.md R65) -/

namespace Sys2Proof.Laws.OwnRow

/-- The row of an operation is one of the map's 34, and the operation's encoding selects it by mask and match. -/
def Statement (i : Instr) : Prop :=
  ∀ row : Word × Word, rowOf i = some row → row ∈ opcodeMap ∧ selects (encodeWord i) row = true

/-- One row is all there is to show. -/
theorem of_row {i : Instr} {row : Word × Word} (h : rowOf i = some row) (hm : row ∈ opcodeMap)
    (hs : selects (encodeWord i) row = true) : Statement i := by
  intro row' h'
  rw [h] at h'
  cases h'
  exact ⟨hm, hs⟩

theorem nnn {i : Instr} {op : Nat} {a : Addr12} (ho : op < 16) (he : encodeWord i = wordNNN op a)
    (h : rowOf i = some (0xF000, BitVec.ofNat 16 (op * 0x1000)))
    (hm : ((0xF000, BitVec.ofNat 16 (op * 0x1000)) : Word × Word) ∈ opcodeMap) : Statement i :=
  of_row h hm (he ▸ selects_family (toNat_wordNNN a ho) a.isLt)

theorem xkk {i : Instr} {op : Nat} {x : Reg} {kk : Byte} (ho : op < 16) (he : encodeWord i = wordXKK op x kk.toNat)
    (h : rowOf i = some (0xF000, BitVec.ofNat 16 (op * 0x1000)))
    (hm : ((0xF000, BitVec.ofNat 16 (op * 0x1000)) : Word × Word) ∈ opcodeMap) : Statement i := by
  have hk := kk.isLt; have hx := x.isLt
  exact of_row h hm (he ▸ selects_family (r := x.val * 0x100 + kk.toNat) (by rw [toNat_wordXKK x ho hk]; omega) (by omega))

theorem xyn {i : Instr} {op : Nat} {x y : Reg} {n : Nibble} (ho : op < 16) (he : encodeWord i = wordXYN op x y n.val)
    (h : rowOf i = some (0xF000, BitVec.ofNat 16 (op * 0x1000)))
    (hm : ((0xF000, BitVec.ofNat 16 (op * 0x1000)) : Word × Word) ∈ opcodeMap) : Statement i := by
  have hy := y.isLt; have hx := x.isLt; have hn := n.isLt
  exact of_row h hm (he ▸ selects_family (r := x.val * 0x100 + y.val * 0x10 + n.val)
    (by rw [toNat_wordXYN x y ho hn]; omega) (by omega))

theorem xy {i : Instr} {op sub : Nat} {x y : Reg} (ho : op < 16) (hn : sub < 16) (he : encodeWord i = wordXYN op x y sub)
    (h : rowOf i = some (0xF00F, BitVec.ofNat 16 (op * 0x1000 + sub)))
    (hm : ((0xF00F, BitVec.ofNat 16 (op * 0x1000 + sub)) : Word × Word) ∈ opcodeMap) : Statement i := by
  have hy := y.isLt; have hx := x.isLt
  exact of_row h hm (he ▸ selects_nibble (r := x.val * 0x10 + y.val) (by rw [toNat_wordXYN x y ho hn]; omega) (by omega) hn)

theorem xsub {i : Instr} {op sub : Nat} {x : Reg} (ho : op < 16) (hk : sub < 256) (he : encodeWord i = wordXKK op x sub)
    (h : rowOf i = some (0xF0FF, BitVec.ofNat 16 (op * 0x1000 + sub)))
    (hm : ((0xF0FF, BitVec.ofNat 16 (op * 0x1000 + sub)) : Word × Word) ∈ opcodeMap) : Statement i :=
  of_row h hm (he ▸ selects_byte (toNat_wordXKK x ho hk) x.isLt hk)

theorem cls : Statement (.cls) := of_row rfl (by decide) (by decide)
theorem ret : Statement (.ret) := of_row rfl (by decide) (by decide)
theorem jp (a : Addr12) : Statement (.jp a) := nnn (by decide) rfl rfl (by decide)
theorem call (a : Addr12) : Statement (.call a) := nnn (by decide) rfl rfl (by decide)
theorem ldI (a : Addr12) : Statement (.ldI a) := nnn (by decide) rfl rfl (by decide)
theorem jpV0 (a : Addr12) : Statement (.jpV0 a) := nnn (by decide) rfl rfl (by decide)
theorem seImm (x : Reg) (kk : Byte) : Statement (.seImm x kk) := xkk (by decide) rfl rfl (by decide)
theorem sneImm (x : Reg) (kk : Byte) : Statement (.sneImm x kk) := xkk (by decide) rfl rfl (by decide)
theorem ldImm (x : Reg) (kk : Byte) : Statement (.ldImm x kk) := xkk (by decide) rfl rfl (by decide)
theorem addImm (x : Reg) (kk : Byte) : Statement (.addImm x kk) := xkk (by decide) rfl rfl (by decide)
theorem rnd (x : Reg) (kk : Byte) : Statement (.rnd x kk) := xkk (by decide) rfl rfl (by decide)
theorem seReg (x y : Reg) (n : Nibble) : Statement (.seReg x y n) := xyn (by decide) rfl rfl (by decide)
theorem sneReg (x y : Reg) (n : Nibble) : Statement (.sneReg x y n) := xyn (by decide) rfl rfl (by decide)
theorem drw (x y : Reg) (n : Nibble) : Statement (.drw x y n) := xyn (by decide) rfl rfl (by decide)
theorem ldReg (x y : Reg) : Statement (.ldReg x y) := xy (by decide) (by decide) rfl rfl (by decide)
theorem orReg (x y : Reg) : Statement (.orReg x y) := xy (by decide) (by decide) rfl rfl (by decide)
theorem andReg (x y : Reg) : Statement (.andReg x y) := xy (by decide) (by decide) rfl rfl (by decide)
theorem xorReg (x y : Reg) : Statement (.xorReg x y) := xy (by decide) (by decide) rfl rfl (by decide)
theorem addReg (x y : Reg) : Statement (.addReg x y) := xy (by decide) (by decide) rfl rfl (by decide)
theorem subReg (x y : Reg) : Statement (.subReg x y) := xy (by decide) (by decide) rfl rfl (by decide)
theorem shr (x y : Reg) : Statement (.shr x y) := xy (by decide) (by decide) rfl rfl (by decide)
theorem subn (x y : Reg) : Statement (.subn x y) := xy (by decide) (by decide) rfl rfl (by decide)
theorem shl (x y : Reg) : Statement (.shl x y) := xy (by decide) (by decide) rfl rfl (by decide)
theorem skp (x : Reg) : Statement (.skp x) := xsub (by decide) (by decide) rfl rfl (by decide)
theorem sknp (x : Reg) : Statement (.sknp x) := xsub (by decide) (by decide) rfl rfl (by decide)
theorem ldVxDT (x : Reg) : Statement (.ldVxDT x) := xsub (by decide) (by decide) rfl rfl (by decide)
theorem ldVxK (x : Reg) : Statement (.ldVxK x) := xsub (by decide) (by decide) rfl rfl (by decide)
theorem ldDTVx (x : Reg) : Statement (.ldDTVx x) := xsub (by decide) (by decide) rfl rfl (by decide)
theorem ldSTVx (x : Reg) : Statement (.ldSTVx x) := xsub (by decide) (by decide) rfl rfl (by decide)
theorem addI (x : Reg) : Statement (.addI x) := xsub (by decide) (by decide) rfl rfl (by decide)
theorem ldF (x : Reg) : Statement (.ldF x) := xsub (by decide) (by decide) rfl rfl (by decide)
theorem ldB (x : Reg) : Statement (.ldB x) := xsub (by decide) (by decide) rfl rfl (by decide)
theorem storeRegs (x : Reg) : Statement (.storeRegs x) := xsub (by decide) (by decide) rfl rfl (by decide)
theorem loadRegs (x : Reg) : Statement (.loadRegs x) := xsub (by decide) (by decide) rfl rfl (by decide)
theorem unknown (w : Word) : Statement (.unknown w) := fun _ h => nomatch h

end Sys2Proof.Laws.OwnRow
end

