-- ==== Sys2Proof/Tests/Slice0.lean ====
section
/-! SUPPORT. The model's own tests: ill-formed terms refused, every constructor's decoding by a word written out from 30_encoding.md R65, one or two single steps per instruction with results from 95_test_vectors.md (the vector is named in each comment), and a witness for the hypotheses of every obligation that has some. -/

namespace Sys2Proof.Tests

open Sys2Proof Sys2Proof.Machine Sys2Proof.Config

/-! ## Well-formedness: the ill-formed terms are UNKNOWNs that carry another operation's word -/

theorem test_wf_family0_refuses : wellFormed (.unknown 0x00E0) = false ∧ wellFormed (.unknown 0x00EE) = false := by decide
theorem test_wf_family8_refuses : wellFormed (.unknown 0x8127) = false ∧ wellFormed (.unknown 0x812E) = false := by decide
theorem test_wf_familyE_refuses : wellFormed (.unknown 0xE19E) = false ∧ wellFormed (.unknown 0xE1A1) = false := by decide
theorem test_wf_familyF_refuses : wellFormed (.unknown 0xF155) = false ∧ wellFormed (.unknown 0xF10A) = false := by decide
theorem test_wf_other_families_refuse : wellFormed (.unknown 0x6005) = false ∧ wellFormed (.unknown 0xD125) = false := by decide
theorem test_wf_accepts : wellFormed (.unknown 0x0123) = true ∧ wellFormed (.unknown 0x8128) = true ∧
    wellFormed (.unknown 0xE19F) = true ∧ wellFormed (.unknown 0xF1FF) = true := by decide

/-! ## Decoding: op 15:12, x 11:8, y 7:4, n 3:0 written out bit by bit from R65 -/

theorem test_decode_cls : decodeWord 0b0000_0000_1110_0000 = .cls := by decide
theorem test_decode_ret : decodeWord 0b0000_0000_1110_1110 = .ret := by decide
theorem test_decode_jp : decodeWord 0b0001_1010_1011_1100 = .jp 0xABC := by decide
theorem test_decode_call : decodeWord 0b0010_0011_0000_0001 = .call 0x301 := by decide
theorem test_decode_seImm : decodeWord 0b0011_1010_0100_0101 = .seImm 10 0x45 := by decide
theorem test_decode_sneImm : decodeWord 0b0100_0011_1000_0001 = .sneImm 3 0x81 := by decide
theorem test_decode_seReg : decodeWord 0b0101_0011_0100_1010 = .seReg 3 4 10 := by decide
theorem test_decode_ldImm : decodeWord 0b0110_1111_1010_1011 = .ldImm 15 0xAB := by decide
theorem test_decode_addImm : decodeWord 0b0111_0010_0000_0001 = .addImm 2 1 := by decide
theorem test_decode_ldReg : decodeWord 0b1000_0001_0010_0000 = .ldReg 1 2 := by decide
theorem test_decode_orReg : decodeWord 0b1000_0001_0010_0001 = .orReg 1 2 := by decide
theorem test_decode_andReg : decodeWord 0b1000_0001_0010_0010 = .andReg 1 2 := by decide
theorem test_decode_xorReg : decodeWord 0b1000_0001_0010_0011 = .xorReg 1 2 := by decide
theorem test_decode_addReg : decodeWord 0b1000_0001_0010_0100 = .addReg 1 2 := by decide
theorem test_decode_subReg : decodeWord 0b1000_0001_0010_0101 = .subReg 1 2 := by decide
theorem test_decode_shr : decodeWord 0b1000_0001_0010_0110 = .shr 1 2 := by decide
theorem test_decode_subn : decodeWord 0b1000_0001_0010_0111 = .subn 1 2 := by decide
theorem test_decode_shl : decodeWord 0b1000_0001_0010_1110 = .shl 1 2 := by decide
theorem test_decode_sneReg : decodeWord 0b1001_0011_0100_0111 = .sneReg 3 4 7 := by decide
theorem test_decode_ldI : decodeWord 0b1010_1111_1111_1110 = .ldI 0xFFE := by decide
theorem test_decode_jpV0 : decodeWord 0b1011_0011_0000_0001 = .jpV0 0x301 := by decide
theorem test_decode_rnd : decodeWord 0b1100_0100_0000_1111 = .rnd 4 0x0F := by decide
theorem test_decode_drw : decodeWord 0b1101_0001_0010_0101 = .drw 1 2 5 := by decide
theorem test_decode_skp : decodeWord 0b1110_0011_1001_1110 = .skp 3 := by decide
theorem test_decode_sknp : decodeWord 0b1110_0011_1010_0001 = .sknp 3 := by decide
theorem test_decode_ldVxDT : decodeWord 0b1111_0001_0000_0111 = .ldVxDT 1 := by decide
theorem test_decode_ldVxK : decodeWord 0b1111_0101_0000_1010 = .ldVxK 5 := by decide
theorem test_decode_ldDTVx : decodeWord 0b1111_0011_0001_0101 = .ldDTVx 3 := by decide
theorem test_decode_ldSTVx : decodeWord 0b1111_0011_0001_1000 = .ldSTVx 3 := by decide
theorem test_decode_addI : decodeWord 0b1111_0010_0001_1110 = .addI 2 := by decide
theorem test_decode_ldF : decodeWord 0b1111_0010_0010_1001 = .ldF 2 := by decide
theorem test_decode_ldB : decodeWord 0b1111_0011_0011_0011 = .ldB 3 := by decide
theorem test_decode_storeRegs : decodeWord 0b1111_0010_0101_0101 = .storeRegs 2 := by decide
theorem test_decode_loadRegs : decodeWord 0b1111_0100_0110_0101 = .loadRegs 4 := by decide
theorem test_decode_unknown : decodeWord 0b0000_0001_0010_0011 = .unknown 0x0123 ∧
    decodeWord 0b1000_0001_0010_1000 = .unknown 0x8128 ∧ decodeWord 0b1110_0001_1001_1111 = .unknown 0xE19F ∧
    decodeWord 0b1111_0001_1111_1111 = .unknown 0xF1FF := by decide

/-- S7 fixes the byte order: the first byte is bits 15:8. -/
theorem test_decode_bytes : decode [0x60, 0x05, 0x70] = .ok (.ldImm 0 5, [0x70]) := by decide
theorem test_decode_truncated : decode [0x60] = .error .truncated ∧ decode [] = .error .truncated := by decide

/-! ## Single steps -/

/-- The constructed Machine with one opcode at 0x200. -/
def place (w : Nat) : State := State.reset.withFetchWord 16 w

/-- What one step leaves, seen through `f`; none where it does not complete. -/
def after {α : Type} (s : State) (f : State → α) : Option α :=
  match step s with
  | .next t => some (f t)
  | .fault _ => none
  | .refused _ => none

/-- The fault of one step. -/
def stops (s : State) : Option Fault :=
  match step s with
  | .next _ => none
  | .fault f => some f
  | .refused _ => none

/-- Pixel (px, py), column first as the vectors write it. -/
def pixel (s : State) (px : Fin 64) (py : Fin 32) : Bool := Screen.get s.pix (py, px)

/-- A keypad with the listed keys down. -/
def down (ks : List Nat) : Keypad := Vector.ofFn (fun k : Fin 16 => ks.contains k.val)

/-- A Machine at another policy. -/
def withParams (s : State) (oob : OobPolicy) (key : KeyIndexPolicy) (pick : KeyPickPolicy) (tone : TonePolicy) : State :=
  { s with params := { s.params with oob := oob, keyIndex := key, keyPick := pick, tone := tone } }

/-- V-CLS-1. -/
theorem test_cls : after (((place 0x00E0).setV VF 1).setPix (Screen.toggle Screen.clear (2, 3)))
    (fun t => (pixel t 3 2, t.V[15])) = some (false, 1) := by decide

/-- V-RET-1 (at 0x200). -/
theorem test_ret : after { place 0x00EE with sp := 1, stack := (place 0).stack.set 0 0x300 }
    (fun t => (t.pc, t.sp, t.stack[0])) = some (0x300, 0, 0x300) := by decide
/-- V-RET-2 (at 0x200). -/
theorem test_ret_underflow : after (place 0x00EE) (fun t => (t.pc, t.sp, t.event)) =
    some (0x202, 0, some .stackUnderflow) := by decide

/-- V-JP-1. -/
theorem test_jp : after (place 0x1ABC) (fun t => t.pc) = some 0xABC := by decide

/-- V-CALL-2. -/
theorem test_call : after { place 0x2300 with sp := 15 } (fun t => (t.pc, t.sp, t.stack[15])) =
    some (0x300, 16, 0x202) := by decide
/-- V-CALL-3. -/
theorem test_call_overflow : after { place 0x2300 with sp := 16 } (fun t => (t.pc, t.sp, t.event)) =
    some (0x202, 16, some .stackOverflow) := by decide

/-- V-SE-1. -/
theorem test_seImm_taken : after ((place 0x3344).setV 3 0x44) (fun t => t.pc) = some 0x204 := by decide
/-- V-SE-2. -/
theorem test_seImm_not_taken : after ((place 0x3344).setV 3 0x45) (fun t => t.pc) = some 0x202 := by decide
/-- V-SNE-1. -/
theorem test_sneImm_not_taken : after ((place 0x4344).setV 3 0x44) (fun t => t.pc) = some 0x202 := by decide
/-- V-SNE-2. -/
theorem test_sneImm_taken : after ((place 0x4344).setV 3 0x45) (fun t => t.pc) = some 0x204 := by decide
/-- V-SER-3. -/
theorem test_seReg_taken : after (((place 0x534A).setV 3 7).setV 4 7) (fun t => t.pc) = some 0x204 := by decide
/-- V-SER-2. -/
theorem test_seReg_not_taken : after (((place 0x5340).setV 3 7).setV 4 8) (fun t => t.pc) = some 0x202 := by decide
/-- V-SNER-1. -/
theorem test_sneReg_not_taken : after (((place 0x9340).setV 3 7).setV 4 7) (fun t => t.pc) = some 0x202 := by decide
/-- V-SNER-3. -/
theorem test_sneReg_taken : after (((place 0x9347).setV 3 7).setV 4 8) (fun t => t.pc) = some 0x204 := by decide

/-- V-JPV-2. -/
theorem test_jpV0 : after ((place 0xBFFF).setV 0 0xFF) (fun t => t.pc) = some 0x10FE := by decide

/-- S7, first step. -/
theorem test_ldImm : after (place 0x6005) (fun t => (t.V[0], t.pc)) = some (5, 0x202) := by decide
/-- V-ADDI-2. -/
theorem test_addImm_wraps : after (((place 0x7201).setV 2 0xFF).setV VF 1) (fun t => (t.V[2], t.V[15])) =
    some (0, 1) := by decide
/-- V-LD-1. -/
theorem test_ldReg : after ((((place 0x8120).setV 1 0x12).setV 2 0x34).setV VF 0xAA)
    (fun t => (t.V[1], t.V[2], t.V[15])) = some (0x34, 0x34, 0xAA) := by decide
/-- V-OR-1. -/
theorem test_orReg : after ((((place 0x8121).setV 1 0xF0).setV 2 0x0F).setV VF 0xAA)
    (fun t => (t.V[1], t.V[15])) = some (0xFF, 0xAA) := by decide
/-- V-AND-1. -/
theorem test_andReg : after ((((place 0x8122).setV 1 0xF0).setV 2 0x3C).setV VF 0xAA)
    (fun t => (t.V[1], t.V[15])) = some (0x30, 0xAA) := by decide
/-- V-XOR-1. -/
theorem test_xorReg : after ((((place 0x8123).setV 1 0xFF).setV 2 0x0F).setV VF 0xAA)
    (fun t => (t.V[1], t.V[15])) = some (0xF0, 0xAA) := by decide
/-- The table of `8xy4`, row C8, 64. -/
theorem test_addReg : after (((place 0x8124).setV 1 0xC8).setV 2 0x64) (fun t => (t.V[1], t.V[15])) =
    some (0x2C, 1) := by decide
/-- V-ALU-F-2. -/
theorem test_addReg_VF : after (((place 0x8F24).setV VF 1).setV 2 2) (fun t => t.V[15]) = some 0 := by decide
/-- The table of `8xy5`, row 05, 07. -/
theorem test_subReg_borrow : after (((place 0x8125).setV 1 5).setV 2 7) (fun t => (t.V[1], t.V[15])) =
    some (0xFE, 0) := by decide
/-- V-ALU-XX-2. -/
theorem test_subReg_equal : after ((place 0x8115).setV 1 0x33) (fun t => (t.V[1], t.V[15])) = some (0, 1) := by decide
/-- The table of `8xy6`, row 81. -/
theorem test_shr : after (((place 0x8126).setV 1 0x81).setV 2 0xF0) (fun t => (t.V[1], t.V[2], t.V[15])) =
    some (0x40, 0xF0, 1) := by decide
/-- The table of `8xy7`, row 05, 07. -/
theorem test_subn : after (((place 0x8127).setV 1 5).setV 2 7) (fun t => (t.V[1], t.V[15])) = some (2, 1) := by decide
/-- The table of `8xy7`, row FF, 01. -/
theorem test_subn_borrow : after (((place 0x8127).setV 1 0xFF).setV 2 1) (fun t => (t.V[1], t.V[15])) =
    some (2, 0) := by decide
/-- The table of `8xyE`, row 81. -/
theorem test_shl : after (((place 0x812E).setV 1 0x81).setV 2 0xF0) (fun t => (t.V[1], t.V[2], t.V[15])) =
    some (2, 0xF0, 1) := by decide
/-- V-RND-4. -/
theorem test_rnd : after { place 0xC4F0 with rndIn := [0x5C, 0x11] } (fun t => (t.V[4], t.rndIn)) =
    some (0x50, [0x11]) := by decide

/-- V-LDX-2. -/
theorem test_ldI : after (place 0xAFFF) (fun t => t.I) = some 0x0FFF := by decide
/-- V-ADDX-1. -/
theorem test_addI_no_flag : after ((((place 0xF21E).setI 0x0FFF).setV 2 1).setV VF 9) (fun t => (t.I, t.V[15])) =
    some (0x1000, 9) := by decide
/-- V-ADDX-2. -/
theorem test_addI_wraps : after (((place 0xF21E).setI 0xFFFF).setV 2 2) (fun t => t.I) = some 1 := by decide
/-- The values of `Fx29`: 0x0A. -/
theorem test_ldF : after ((place 0xF229).setV 2 0x0A) (fun t => t.I) = some 0x82 := by decide
/-- The values of `Fx29`: 0xFF. -/
theorem test_ldF_unmasked : after ((place 0xF229).setV 2 0xFF) (fun t => t.I) = some 0x54B := by decide
/-- V-BCD-1 with the table's 234. -/
theorem test_ldB : after (((place 0xF333).setI 0xFFD).setV 3 234)
    (fun t => (t.byteAt 0xFFD, t.byteAt 0xFFE, t.byteAt 0xFFF)) = some (2, 3, 4) := by decide
/-- V-BCD-2. -/
theorem test_ldB_fault : stops (((place 0xF333).setI 0xFFE).setV 3 255) = some (.addressOutOfRange 0x1000 .write) := by decide
/-- V-ST-1. -/
theorem test_storeRegs : after ((((((place 0xF255).setI 0x300).setV 0 1).setV 1 2).setV 2 3).setV 3 4)
    (fun t => (t.byteAt 0x300, t.byteAt 0x301, t.byteAt 0x302, t.byteAt 0x303, t.I)) = some (1, 2, 3, 0, 0x300) := by decide
/-- V-ST-4. -/
theorem test_storeRegs_fault : stops ((place 0xFF55).setI 0xFF1) = some (.addressOutOfRange 0x1000 .write) := by decide
/-- V-LDM-1: glyph 0 of the default font. -/
theorem test_loadRegs : after (((place 0xF465).setI 0x050).setV 5 0x99)
    (fun t => (t.V[0], t.V[1], t.V[4], t.V[5], t.I)) = some (0xF0, 0x90, 0xF0, 0x99, 0x050) := by decide
/-- V-LDM-2. -/
theorem test_loadRegs_own_bytes : after ((place 0xF165).setI 0x200) (fun t => (t.V[0], t.V[1])) =
    some (0xF1, 0x65) := by decide

/-- V-DRW-1. -/
theorem test_drw_wraps : after (((((place 0xD011).setI 0x300).setV 0 60).setV 1 5).putByte 0x300 0xFF)
    (fun t => ([pixel t 59 5, pixel t 60 5, pixel t 63 5, pixel t 0 5, pixel t 3 5, pixel t 4 5], t.V[15])) =
    some ([false, true, true, true, true, false], 0) := by decide
/-- V-DRW-5. -/
theorem test_drw_collision :
    after ((((place 0xD011).setI 0x300).setPix (Screen.toggle Screen.clear (0, 3))).putByte 0x300 0xF0)
    (fun t => (pixel t 0 0, pixel t 2 0, pixel t 3 0, pixel t 4 0, t.V[15])) =
    some (true, true, false, false, 1) := by decide

/-- V-KEY-1. -/
theorem test_skp : after { (place 0xE39E).setV 3 7 with keyIn := [down [7]] } (fun t => t.pc) = some 0x204 := by decide
/-- V-KEY-7 at the default policy. -/
theorem test_skp_fault : stops ((place 0xE39E).setV 3 16) = some (.keyIndexOutOfRange 16) := by decide
/-- V-KEY-4. -/
theorem test_sknp : after { (place 0xE3A1).setV 3 7 with keyIn := [down [7]] } (fun t => t.pc) = some 0x202 := by decide
/-- V-KEY-7 under `not_pressed`. -/
theorem test_sknp_not_pressed :
    after (withParams ((place 0xE3A1).setV 3 16) .fault .notPressed .any .atLeastLast) (fun t => t.pc) =
    some 0x204 := by decide
/-- V-KEY-8, its first step. -/
theorem test_ldVxK_waits : after ((place 0xF50A).setDT 5) (fun t => (t.pc, t.DT, t.opcode)) =
    some (0x200, 4, 0xF50A) := by decide
/-- V-KEY-8, its last step. -/
theorem test_ldVxK_key : after { (place 0xF50A).setDT 2 with keyIn := [down [0xB]] } (fun t => (t.V[5], t.pc, t.DT)) =
    some (0x0B, 0x202, 1) := by decide
/-- V-TMR-4. -/
theorem test_ldVxDT : after ((place 0xF107).setDT 2) (fun t => (t.V[1], t.DT)) = some (2, 1) := by decide
/-- V-TMR-1. -/
theorem test_ldDTVx : after ((place 0xF015).setV 0 3) (fun t => t.DT) = some 2 := by decide
/-- V-TMR-6, its first step. -/
theorem test_ldSTVx : after ((place 0xF018).setV 0 1) (fun t => (t.ST, t.toneReq)) = some (0, true) := by decide

/-- V-UNK-1. -/
theorem test_unknown : after ((place 0x0000).setDT 3) (fun t => (t.pc, t.DT, t.event, t.toneReq)) =
    some (0x202, 2, some (.unknownOpcode 0), false) := by decide
/-- V-UNK-4: no key number is formed. -/
theorem test_unknown_familyE : after ((place 0xE19F).setV 1 0x20) (fun t => (t.pc, t.event)) =
    some (0x202, some (.unknownOpcode 0xE19F)) := by decide

/-- V-FETCH-3. -/
theorem test_fetch_fault : stops ((place 0).setPc 0xFFF) = some (.addressOutOfRange 0x1000 .fetch) := by decide
/-- V-FETCH-5. -/
theorem test_fetch_wraps :
    after (((withParams ((place 0).setPc 0xFFF) .wrap12 .fault .any .atLeastLast).putByte 0xFFF 0x12).putByte 0 0x34)
    (fun t => (t.opcode, t.pc)) = some (0x1234, 0x234) := by decide

/-! ## The outside -/

/-- V-LOAD-4. -/
theorem test_load : let r := State.reset.load [0x12]
    (r.1.byteAt 0x200, r.1.byteAt 0x201, r.1.pc, r.2) = (0x12, 0, 0x200, none) := by decide

/-- V-LOAD-2: memory is as it was, and the Machine is still there to look at. -/
theorem test_load_too_large (bytes : List Byte) (h : bytes.length = 3585) :
    (Life.apply (.built State.reset) (.load bytes)).bind Life.machine = some State.reset := by
  simp [Life.apply, State.load, romMax, h, Life.machine]

/-- R27, R206: the debug view shows the screen with the other ten items (V-DRW-2's pixel). -/
theorem test_dbgView_pix : let v := (State.reset.setPix (Screen.toggle Screen.clear (8, 8))).dbgView
    (v.pix[8]?.bind (·[8]?), v.pix[8]?.bind (·[9]?), v.pc, v.key.length) = (some true, some false, 0x200, 16) := by decide

/-! ## Witnesses: each theorem shows a state and operands that meet all the hypotheses of an obligation, clause by
clause, at a boundary value where the clause has one -/

/-- A step that is seen to complete gives a next state. -/
theorem next_of_after {α : Type} {s : State} {f : State → α} {a : α} (h : after s f = some a) :
    ∃ t : State, step s = .next t ∧ f t = a := by
  unfold after at h
  split at h
  · rename_i t ht
    exact ⟨t, ht, Option.some.inj h⟩
  · cases h
  · cases h

/-- A step that is seen to stop gives that fault. -/
theorem fault_of_stops {s : State} {f : Fault} (h : stops s = some f) : step s = .fault f := by
  unfold stops at h
  split at h
  · cases h
  · rename_i g hg
    rw [hg, Option.some.inj h]
  · cases h

theorem witness_DecodeInvertsEncode : wellFormed (.drw 15 15 15) = true ∧ wellFormed (.unknown 0xFFFF) = true := by decide

theorem witness_UnknownEncodingsByFamily : decodeWord 0x00E1 = .unknown 0x00E1 ∧ decodeWord 0x8008 = .unknown 0x8008 ∧
    decodeWord 0x800F = .unknown 0x800F ∧ decodeWord 0xE09F = .unknown 0xE09F ∧
    decodeWord 0xF066 = .unknown 0xF066 := by decide

theorem witness_StepRunsFetchedInstruction : ∃ (s b : State) (i : Instr) (hi lo : Byte), s.reaches s.pc.toNat 2 ∧
    hi = s.byteAt (s.pc.toNat % 4096) ∧ lo = s.byteAt ((s.pc.toNat + 1) % 4096) ∧ decode [hi, lo] = .ok (i, []) ∧
    b = { s with
          opcode := BitVec.ofNat 16 (hi.toNat * 256 + lo.toNat), pc := BitVec.ofNat 16 (s.pc.toNat + 2)
          key := s.keyIn.headD s.key, keyIn := s.keyIn.tail, event := none } :=
  ⟨(State.reset.setPc 0xFFE).putByte 0xFFE 0x60, _, .ldImm 0 0, 0x60, 0, .inr (.inr (by decide)), by decide, by decide,
    by decide, rfl⟩

theorem witness_StepRunsFetchedInstruction_fault : ∃ s : State, s.pc.toNat = 4095 ∧ ¬ s.reaches s.pc.toNat 2 :=
  ⟨State.reset.setPc 0xFFF, by decide, State.not_reaches (by decide) (by decide) (by decide)⟩

theorem witness_FetchBeyondMemoryFaults : ∃ s s' : State, s.params.oob = .fault ∧ s.pc.toNat = 4095 ∧
    s'.params.oob = .fault ∧ s'.pc.toNat = 65535 :=
  ⟨State.reset.setPc 0xFFF, State.reset.setPc 0xFFFF, by decide⟩

theorem witness_StoredBytesAreFetched : ∃ (s p t : State) (hi lo : Byte) (w : Word), s.pc.toNat + 1 = 4095 ∧
    w.toNat = hi.toNat * 256 + lo.toNat ∧ p = (s.putByte s.pc.toNat hi).putByte (s.pc.toNat + 1) lo ∧
    exec (decodeWord w) (p.beginStep w) = .next t :=
  ⟨State.reset.setPc 0xFFE, _, _, 0x60, 0x07, 0x6007, by decide, by decide, rfl, rfl⟩

theorem witness_StoredBytesAreFetched_fault : ∃ (s p : State) (e : Fault) (hi lo : Byte) (w : Word),
    s.pc.toNat + 1 < 4096 ∧ w.toNat = hi.toNat * 256 + lo.toNat ∧
    p = (s.putByte s.pc.toNat hi).putByte (s.pc.toNat + 1) lo ∧ exec (decodeWord w) (p.beginStep w) = .fault e :=
  ⟨State.reset.setI 0xFFE, _, .addressOutOfRange 0x1000 .write, 0xF0, 0x33, 0xF033, by decide, by decide, rfl, rfl⟩

/-- Also for EveryStepTicksTheTimers, StepTakesOneKeypadSnapshot, MemoryAndScreenWriters and StackMovesByCallAndRet. -/
theorem witness_PcAfterEachOperation : ∃ s t : State, step s = .next t ∧ decodeWord t.opcode = .jpV0 0xFFF :=
  have ⟨t, ht, h⟩ := next_of_after (s := (place 0xBFFF).setV 0 0xFF) (f := fun t => decodeWord t.opcode)
    (a := .jpV0 0xFFF) (by decide)
  ⟨_, t, ht, h⟩

theorem witness_EveryStepTicksTheTimers :
    ∃ s t : State, step s = .next t ∧ decodeWord t.opcode = .ldDTVx 0 ∧ s.V[0] = 255 ∧ s.ST = 0 :=
  have ⟨t, ht, h⟩ := next_of_after (s := (place 0xF015).setV 0 255) (f := fun t => decodeWord t.opcode)
    (a := .ldDTVx 0) (by decide)
  ⟨_, t, ht, h, by decide, by decide⟩

theorem witness_ToneRequestOfTheStep_zero :
    ∃ (s t : State) (n : Nat), step s = .next t ∧
      n = (match decodeWord t.opcode with | .ldSTVx x => s.V[x].toNat | _ => s.ST.toNat) ∧ n = 0 :=
  have ⟨t, ht, h⟩ := next_of_after (s := (place 0xF018).setST 7) (f := fun t => t.opcode) (a := 0xF018) (by decide)
  ⟨_, t, 0, ht, by rw [h]; decide, rfl⟩

theorem witness_ToneRequestOfTheStep_one :
    ∃ (s t : State) (n : Nat), step s = .next t ∧
      n = (match decodeWord t.opcode with | .ldSTVx x => s.V[x].toNat | _ => s.ST.toNat) ∧ n = 1 :=
  have ⟨t, ht, h⟩ := next_of_after (s := (place 0x6005).setST 1) (f := fun t => t.opcode) (a := 0x6005) (by decide)
  ⟨_, t, 1, ht, by rw [h]; decide, rfl⟩

theorem witness_ToneRequestOfTheStep_more :
    (∃ (s t : State) (n : Nat), step s = .next t ∧
      n = (match decodeWord t.opcode with | .ldSTVx x => s.V[x].toNat | _ => s.ST.toNat) ∧ 2 ≤ n ∧
      s.params.tone = .everyNonzero) ∧
    ∃ (s t : State) (n : Nat), step s = .next t ∧
      n = (match decodeWord t.opcode with | .ldSTVx x => s.V[x].toNat | _ => s.ST.toNat) ∧ 2 ≤ n ∧
      s.params.tone = .lastOnly := by
  constructor
  · obtain ⟨t, ht, h⟩ := next_of_after (s := withParams ((place 0x6005).setST 2) .fault .fault .any .everyNonzero)
      (f := fun t => t.opcode) (a := 0x6005) (by decide)
    exact ⟨_, t, 2, ht, by rw [h]; decide, by decide, by decide⟩
  · obtain ⟨t, ht, h⟩ := next_of_after (s := withParams ((place 0x6005).setST 2) .fault .fault .any .lastOnly)
      (f := fun t => t.opcode) (a := 0x6005) (by decide)
    exact ⟨_, t, 2, ht, by rw [h]; decide, by decide, by decide⟩

/-- One step of a Machine at DT = 5 that executes `6005`. -/
theorem witness_DelayTimerCountsSteps : ∃ (k : Nat) (s t : State), k = 1 ∧ s.DT = 5 ∧ core.run k s = .next t ∧
    ∀ (j : Nat) (u v : State) (x : Reg), j < k → core.run j s = .next u → step u = .next v →
      decodeWord v.opcode ≠ .ldDTVx x := by
  obtain ⟨t, ht, h⟩ := next_of_after (s := (place 0x6005).setDT 5) (f := fun t => t.opcode) (a := 0x6005) (by decide)
  refine ⟨1, (place 0x6005).setDT 5, t, rfl, by decide, run_of_next core ht, ?_⟩
  intro j u v x hj hu hv
  obtain rfl : j = 0 := by omega
  cases hu
  rw [ht] at hv
  cases hv
  rw [h, show decodeWord 0x6005 = .ldImm 0 5 by decide]
  exact Instr.noConfusion

theorem witness_EveryRunIsLiveUnderTotalPolicies : ∃ s : State, s.params.oob = .wrap12 ∧ s.params.keyIndex ≠ .fault :=
  ⟨withParams State.reset .wrap12 .mask4 .any .atLeastLast, by decide⟩

/-- Both faults occur, each at the first value out of range. -/
theorem witness_OnlyTwoFaultsAndNoRefusal : (∃ s : State, step s = .fault (.addressOutOfRange 4096 .fetch)) ∧
    ∃ s : State, step s = .fault (.keyIndexOutOfRange 16) :=
  ⟨⟨_, fault_of_stops test_fetch_fault⟩, ⟨_, fault_of_stops test_skp_fault⟩⟩

theorem witness_KeypadReadByThreeOperations : ∀ x : Reg,
    Instr.loadRegs 15 ≠ .skp x ∧ Instr.loadRegs 15 ≠ .sknp x ∧ Instr.loadRegs 15 ≠ .ldVxK x := by decide

theorem witness_StepKeepsMemoryCanonical : ∃ s t : State, s.Inv ∧ step s = .next t ∧ t.byteAt 0xFFF = 4 :=
  have ⟨t, ht, h⟩ := next_of_after (s := ((place 0xF333).setI 0xFFD).setV 3 234) (f := fun t => t.byteAt 0xFFF)
    (a := 4) (by decide)
  ⟨_, t, by unfold State.Inv; decide, ht, h⟩

theorem witness_LifecycleKeepsMemoryCanonical :
    ∃ (l : Life) (s : State), l.Reachable ∧ l.machine = some s ∧ s.byteAt 0x200 = 0x12 := by
  refine ⟨.running (State.reset.putByte 0x200 0x12), _, ?_, rfl, by decide⟩
  refine .after (.built State.reset) _ (.load [0x12]) ?_ (by decide)
  exact .after .absent _ (.construct defaultParams) .start (by decide)

/-- Also for FlagRegisterWriters. -/
theorem witness_OperationsWriteWhatTheMatrixLists : ∃ (x y : Reg) (s t : State), exec (.addReg x y) s = .next t ∧ x = VF :=
  ⟨VF, 2, State.reset, _, rfl, rfl⟩

theorem witness_FlagRegisterWriters : (∃ (s t : State), exec (.drw 0 0 1) s = .next t) ∧
    (∃ (s t : State), exec (.loadRegs VF) s = .next t) ∧ (∃ (s t : State), exec (.rnd VF 0x0F) s = .next t) ∧
    (∃ (s t : State), exec (.rnd 14 0x0F) s = .next t) ∧
    ∃ (s t : State), s.key[(4 : Key)] = true ∧ exec (.ldVxK VF) s = .next t :=
  ⟨⟨State.reset, _, rfl⟩, ⟨State.reset, _, rfl⟩, ⟨State.reset, _, rfl⟩, ⟨State.reset, _, rfl⟩,
    ⟨{ State.reset with key := down [4] }, _, by decide, rfl⟩⟩

theorem witness_MemoryAndScreenWriters :
    (∃ s t : State, step s = .next t ∧ t.byteAt 0xFFD ≠ s.byteAt 0xFFD) ∧
    ∃ s t : State, step s = .next t ∧ t.pix ≠ s.pix := by
  constructor
  · obtain ⟨t, ht, h⟩ := next_of_after (s := ((place 0xF333).setI 0xFFD).setV 3 255) (f := fun t => t.byteAt 0xFFD)
      (a := 2) (by decide)
    exact ⟨_, t, ht, by rw [h]; decide⟩
  · obtain ⟨t, ht, h⟩ := next_of_after (s := (place 0xD005).setI 0x050) (f := fun t => pixel t 0 0) (a := true) (by decide)
    refine ⟨_, t, ht, fun e => ?_⟩
    have h' : pixel t 0 0 = false := by unfold pixel; rw [e]; decide
    rw [h] at h'
    cases h'

theorem witness_RetReturns : (∃ s : State, 0 < s.sp.val) ∧ ∃ s : State, s.sp.val = 0 :=
  ⟨⟨{ State.reset with sp := 16 }, by decide⟩, ⟨State.reset, by decide⟩⟩

theorem witness_CallPushesAndJumps : (∃ s : State, s.sp.val = 15 ∧ s.sp.val < 16) ∧ ∃ s : State, s.sp.val = 16 :=
  ⟨⟨{ State.reset with sp := 15 }, by decide⟩, ⟨{ State.reset with sp := 16 }, by decide⟩⟩

theorem witness_CallThenRetReturns : ∃ (s : State) (nnn : Addr12), s.sp.val < 16 ∧ s.reaches s.pc.toNat 2 ∧
    s.reaches nnn.toNat 2 ∧
    decodeWord (wordOfBytes (s.byteAt (s.pc.toNat % 4096)) (s.byteAt ((s.pc.toNat + 1) % 4096))) = .call nnn ∧
    decodeWord (wordOfBytes (s.byteAt nnn.toNat) (s.byteAt ((nnn.toNat + 1) % 4096))) = .ret :=
  ⟨{ (place 0x2FFE).putByte 0xFFF 0xEE with sp := 15 }, 0xFFE, by decide, .inr (.inr (by decide)),
    .inr (.inr (by decide)), by decide, by decide⟩

/-- Also for SubtractionsSetNotBorrow, ShrShiftsRight and ShlShiftsLeft. -/
theorem witness_AddSetsCarry : (14 : Reg) ≠ VF ∧ ∃ s : State, 255 < s.V[0].toNat + s.V[1].toNat :=
  ⟨by decide, (State.reset.setV 0 255).setV 1 1, by decide⟩

theorem witness_RndMasksOneByte : (∃ (s : State) (r : Byte) (rs : List Byte), s.rndIn = r :: rs) ∧ State.reset.rndIn = [] :=
  ⟨⟨{ State.reset with rndIn := [0xAB] }, 0xAB, [], rfl⟩, rfl⟩

theorem witness_LdBStoresDigits : (State.reset.setI 0xFFD).reaches 0xFFD 3 ∧
    (withParams (State.reset.setI 0xFFFF) .wrap12 .fault .any .atLeastLast).reaches 0xFFFF 3 :=
  ⟨.inr (.inr (by decide)), .inl (by decide)⟩

/-- Also for LoadRegsLoads. -/
theorem witness_StoreRegsStores : (State.reset.setI 0xFF0).reaches 0xFF0 ((15 : Reg).val + 1) ∧
    (withParams (State.reset.setI 0xFFF8) .wrap12 .fault .any .atLeastLast).reaches 0xFFF8 ((15 : Reg).val + 1) :=
  ⟨.inr (.inr (by decide)), .inl (by decide)⟩

theorem witness_StoreThenLoadRestoresRegisters : ∃ (x : Reg) (s u t : State) (W : Vector Byte 16), x = 15 ∧
    exec (.storeRegs x) s = .next u ∧ exec (.loadRegs x) { u with V := W, I := s.I } = .next t :=
  ⟨15, State.reset.setI 0xFF0, _, _, Vector.replicate 16 0, rfl, rfl, rfl⟩

theorem witness_AccessBeyondMemoryFaults :
    (∃ s : State, s.params.oob = .fault ∧ s.I.toNat + 3 = 4097) ∧
    (∃ (x : Reg) (s : State), s.params.oob = .fault ∧ s.I.toNat + x.val + 1 = 4097) ∧
    (∃ (n : Nibble) (s : State), s.params.oob = .fault ∧ n.val = 1 ∧ s.I.toNat + n.val = 4097) :=
  ⟨⟨State.reset.setI 0xFFE, by decide⟩, ⟨15, State.reset.setI 0xFF1, by decide⟩, ⟨1, State.reset.setI 0x1000, by decide⟩⟩

theorem witness_MemoryPrimitives : (4095 < 4096) ∧ (4096 ≤ 4096) ∧ ((4095 : Nat) ≠ 0) := by decide

/-- Sprite byte 0x80 at I = 0xFFF, drawn at (0, 0): a hit on a pixel that is on, and on a screen that is clear. -/
theorem witness_DrwTogglesAndReportsCollision :
    let s := (State.reset.setI 0xFFF).putByte 0xFFF 0x80
    let hit (p : Cell) : Prop := ∃ r c : Nat, r < (1 : Nibble).val ∧ c < 8 ∧
      (s.byteAt ((s.I.toNat + r) % 4096)).getLsbD (7 - c) = true ∧
      p.1.val = (s.V[(1 : Reg)].toNat + r) % 32 ∧ p.2.val = (s.V[(0 : Reg)].toNat + c) % 64
    s.reaches s.I.toNat (1 : Nibble).val ∧ hit (0, 0) ∧ Screen.get s.pix (0, 0) = false ∧
      Screen.get (s.setPix (Screen.toggle s.pix (0, 0))).pix (0, 0) = true :=
  ⟨.inr (.inr (by decide)), ⟨0, 0, by decide⟩, by decide, by decide⟩

/-- The first row of glyph 0 drawn at (0, 0) turns a pixel on; a draw of no rows turns none on. -/
theorem witness_DrwTwiceRestoresTheScreen :
    (∃ (s u t : State), exec (.drw 0 0 1) s = .next u ∧ exec (.drw 0 0 1) u = .next t ∧ u.V[0] = s.V[0] ∧
      Screen.get s.pix (0, 0) = false ∧ Screen.get u.pix (0, 0) = true) ∧
    ∃ (s u t : State), exec (.drw 0 0 0) s = .next u ∧ exec (.drw 0 0 0) u = .next t ∧ u.V[0] = s.V[0] ∧
      ∀ p : Cell, Screen.get s.pix p = false → Screen.get u.pix p = false :=
  ⟨⟨State.reset.setI 0x050, _, _, rfl, rfl, by decide, by decide, by decide⟩,
    ⟨State.reset, _, _, rfl, rfl, by decide, fun _ h => h⟩⟩

/-- Lit words of two widths. -/
theorem witness_PixelWordsToggleByXor : ∃ (on : PixelOn 1) (on' : PixelOn 32), on.val = 1 ∧ on'.val = 0x00FFFFFF :=
  ⟨⟨1, by decide⟩, ⟨0x00FFFFFF, by decide⟩, rfl, rfl⟩

theorem witness_KeySkips : ∃ s s' : State, s.V[0].toNat = (15 : Key).val ∧ 15 < s'.V[0].toNat ∧
    (∃ k : Key, s'.V[0].toNat % 16 = k.val) ∧
    (withParams s' .fault .mask4 .any .atLeastLast).params.keyIndex = .mask4 ∧
    (withParams s' .fault .notPressed .any .atLeastLast).params.keyIndex = .notPressed ∧ s'.params.keyIndex = .fault :=
  ⟨State.reset.setV 0 15, State.reset.setV 0 16, by decide, by decide, ⟨0, by decide⟩, by decide, by decide, by decide⟩

theorem witness_KeyWait : (∀ k : Key, State.reset.key[k] = false) ∧
    ∃ s s' : State, s.key[(3 : Key)] = true ∧ s.key[(9 : Key)] = true ∧ s.params.keyPick = .lowest ∧
      s'.key = s.key ∧ s'.params.keyPick = .highest :=
  ⟨by decide, withParams { State.reset with key := down [3, 9] } .fault .fault .lowest .atLeastLast,
    withParams { State.reset with key := down [3, 9] } .fault .fault .highest .atLeastLast, by decide, by decide,
    by decide, by decide, by decide⟩

theorem witness_UnknownReportsItsOpcode : decodeWord 0x8128 = .unknown 0x8128 ∧ (place 0x8128).fetch = .ok 0x8128 :=
  ⟨by decide, rfl⟩

theorem witness_ConstructionValues : ∃ (p : Params) (s : State), s = State.construct p ∧ s.byteAt 0x04F = 0 ∧ s.byteAt 0x0A0 = 0 :=
  ⟨defaultParams, _, rfl, by decide, by decide⟩

theorem witness_LoadCopiesOrFails :
    (List.replicate 3584 (0x12 : Byte)).length ≤ 3584 ∧ 3584 < (List.replicate 3585 (0x12 : Byte)).length :=
  ⟨List.length_replicate.le, List.length_replicate.ge⟩

/-- The last byte of the font before a step that stores over it, and a load that completes. -/
theorem witness_FontIsCopiedAtConstruction :
    (∃ s t : State, step s = .next t ∧ t.byteAt 0x09F ≠ s.byteAt 0x09F) ∧
    ∃ (s t : State) (bytes : List Byte), s.load bytes = (t, none) ∧ bytes.length = 2 := by
  constructor
  · obtain ⟨t, ht, h⟩ := next_of_after (s := ((place 0xF055).setI 0x09F).setV 0 7) (f := fun t => t.byteAt 0x09F)
      (a := 7) (by decide)
    exact ⟨_, t, ht, by rw [h]; decide⟩
  · exact ⟨State.reset, _, [0x60, 0x05], rfl, rfl⟩

theorem witness_TimerMoves : (∃ s t : State, step s = .next t ∧ decodeWord t.opcode = .ldVxDT 1) ∧
    ∃ s t : State, step s = .next t ∧ decodeWord t.opcode = .ldSTVx 0 ∧ s.V[0] = 1 := by
  constructor
  · obtain ⟨t, ht, h⟩ := next_of_after (s := (place 0xF107).setDT 2) (f := fun t => decodeWord t.opcode)
      (a := .ldVxDT 1) (by decide)
    exact ⟨_, t, ht, h⟩
  · obtain ⟨t, ht, h⟩ := next_of_after (s := (place 0xF018).setV 0 1) (f := fun t => decodeWord t.opcode)
      (a := .ldSTVx 0) (by decide)
    exact ⟨_, t, ht, h, by decide⟩

/-- The two lengths are those of witness_LoadCopiesOrFails. -/
theorem witness_LifecycleOrder : (∃ (e : HostEvent) (l : Life), Life.apply .absent e = some l) ∧
    (∃ s t : State, step s = .next t) ∧ ∃ (s : State) (f : Fault), step s = .fault f :=
  ⟨⟨.construct defaultParams, _, rfl⟩, have ⟨t, ht, _⟩ := next_of_after test_ldImm; ⟨_, t, ht⟩,
    ⟨_, _, fault_of_stops test_fetch_fault⟩⟩

end Sys2Proof.Tests
end

section
/-! PROOFS. Control flow (41_control_flow.md): JP and the two immediate skips. -/

namespace Sys2Proof

/-! ## The words of JP, SE Vx, kk and SNE Vx, kk decode to them (R65) -/

theorem decodeWord_wordNNN_jp (nnn : Addr12) : decodeWord (wordNNN 0x1 nnn) = .jp nnn := by
  obtain ⟨hop, hnnn⟩ := fields_wordNNN (op := 0x1) nnn (by decide)
  simp only [decodeWord, hop, hnnn]

theorem decodeWord_wordXKK_seImm (x : Reg) (kk : Byte) : decodeWord (wordXKK 0x3 x kk.toNat) = .seImm x kk := by
  obtain ⟨hop, hx, hkk⟩ := fields_wordXKK (op := 0x3) x kk (by decide)
  simp only [decodeWord, hop, hx, hkk]

theorem decodeWord_wordXKK_sneImm (x : Reg) (kk : Byte) : decodeWord (wordXKK 0x4 x kk.toNat) = .sneImm x kk := by
  obtain ⟨hop, hx, hkk⟩ := fields_wordXKK (op := 0x4) x kk (by decide)
  simp only [decodeWord, hop, hx, hkk]

end Sys2Proof

namespace Sys2Proof.Machine

/-! ## What their execute phase answers -/

theorem exec_jp (nnn : Addr12) (s : State) : exec (.jp nnn) s = .next (s.setPc (zext nnn)) := rfl

theorem exec_seImm (x : Reg) (kk : Byte) (s : State) : exec (.seImm x kk) s = .next (s.skipIf (s.V[x] = kk)) := rfl

theorem exec_sneImm (x : Reg) (kk : Byte) (s : State) : exec (.sneImm x kk) s = .next (s.skipIf (s.V[x] ≠ kk)) := rfl

/-- Writing pc leaves every other item. -/
theorem setPc_frame (s : State) (target : Word) : Frame { pc := true } s (s.setPc target) :=
  Frame.of_masked (fun _ _ => rfl) (fun _ _ => rfl) rfl

/-- An address immediate keeps its value at 16 bits (R63). -/
theorem toNat_zext (nnn : Addr12) : (zext nnn).toNat = nnn.toNat :=
  BitVec.toNat_setWidth_of_le (by decide)

/-! ## The obligations -/

/-- Settles O26: the jump writes pc alone, and the zero-extended target is nnn itself. -/
theorem jpJumps : Obligations.JpJumps := by
  intro nnn s
  exact ⟨decodeWord_wordNNN_jp nnn, s.setPc (zext nnn), exec_jp nnn s, toNat_zext nnn, setPc_frame s (zext nnn)⟩

/-- Settles O29: both are `State.skipIf`, SNE on the negated condition. -/
theorem immediateSkips : Obligations.ImmediateSkips := by
  intro x kk s
  refine ⟨⟨decodeWord_wordXKK_seImm x kk, _, exec_seImm x kk s, skipIf_frame s _, ?_⟩,
    ⟨decodeWord_wordXKK_sneImm x kk, _, exec_sneImm x kk s, skipIf_frame s _, ?_⟩⟩
  · simp only [toNat_skipIf_pc, decide_eq_true_eq, BitVec.toNat_inj]
  · simp only [toNat_skipIf_pc, decide_eq_true_eq, BitVec.toNat_inj, ite_not]

end Sys2Proof.Machine
end

section
/-! PROOFS. Loads and the ALU (42_load_alu.md): the two operations with an immediate byte, LD Vx, kk and ADD Vx, kk. -/

namespace Sys2Proof

/-! ## The words of LD Vx, kk and ADD Vx, kk decode to them (R65) -/

theorem decodeWord_wordXKK_ldImm (x : Reg) (kk : Byte) : decodeWord (wordXKK 0x6 x kk.toNat) = .ldImm x kk := by
  obtain ⟨hop, hx, hkk⟩ := fields_wordXKK (op := 0x6) x kk (by decide)
  simp only [decodeWord, hop, hx, hkk]

theorem decodeWord_wordXKK_addImm (x : Reg) (kk : Byte) : decodeWord (wordXKK 0x7 x kk.toNat) = .addImm x kk := by
  obtain ⟨hop, hx, hkk⟩ := fields_wordXKK (op := 0x7) x kk (by decide)
  simp only [decodeWord, hop, hx, hkk]

end Sys2Proof

namespace Sys2Proof.Machine

/-! ## What their execute phase answers -/

theorem exec_ldImm (x : Reg) (kk : Byte) (s : State) : exec (.ldImm x kk) s = .next (s.setV x kk) := rfl

theorem exec_addImm (x : Reg) (kk : Byte) (s : State) : exec (.addImm x kk) s = .next (s.setV x (s.V[x] + kk)) := rfl

/-! ## The obligations -/

/-- Settles O32: the operation is one register write, with F a register like any other. -/
theorem ldImmLoads : Obligations.LdImmLoads := by
  intro x kk s
  exact ⟨decodeWord_wordXKK_ldImm x kk, s.setV x kk, exec_ldImm x kk s, getElem_setV s x kk, setV_frame s x kk⟩

/-- Settles O33: the byte written is the sum at 8 bits, which is the sum modulo 256. -/
theorem addImmAdds : Obligations.AddImmAdds := by
  intro x kk s
  have hsum : (s.setV x (s.V[x] + kk)).V[x].toNat = (s.V[x].toNat + kk.toNat) % 256 := by
    rw [getElem_setV, BitVec.toNat_add]
  exact ⟨decodeWord_wordXKK_addImm x kk, _, exec_addImm x kk s, hsum, setV_frame s x _⟩

end Sys2Proof.Machine
end

section
/-! PROOFS. Index register and memory (43_index_memory.md): LD I, nnn. -/

namespace Sys2Proof

/-! ## The word of LD I, nnn decodes to it (R65) -/

theorem decodeWord_wordNNN_ldI (nnn : Addr12) : decodeWord (wordNNN 0xA nnn) = .ldI nnn := by
  obtain ⟨hop, hnnn⟩ := fields_wordNNN (op := 0xA) nnn (by decide)
  simp only [decodeWord, hop, hnnn]

end Sys2Proof

namespace Sys2Proof.Machine

/-! ## What its execute phase answers -/

theorem exec_ldI (nnn : Addr12) (s : State) : exec (.ldI nnn) s = .next (s.setI (zext nnn)) := rfl

/-- Writing I leaves every other item. -/
theorem setI_frame (s : State) (v : Word) : Frame { I := true } s (s.setI v) :=
  Frame.of_masked (fun _ _ => rfl) (fun _ _ => rfl) rfl

/-! ## The obligation -/

/-- Settles O40: the operation writes I alone, and the zero-extended immediate is nnn itself. -/
theorem ldILoads : Obligations.LdILoads := by
  intro nnn s
  have hI : (s.setI (zext nnn)).I.toNat = nnn.toNat := by
    rw [State.setI_I, toNat_zext]
  exact ⟨decodeWord_wordNNN_ldI nnn, s.setI (zext nnn), exec_ldI nnn s, hI, setI_frame s (zext nnn)⟩

end Sys2Proof.Machine
end

section
/-! PROOFS. Display (44_display.md): CLS, and the words of the pixels. -/

namespace Sys2Proof.Machine

open Sys2Proof.Config

/-! ## What the execute phase of CLS answers -/

theorem exec_cls (s : State) : exec .cls s = .next (s.setPix Screen.clear) := rfl

/-- Writing the screen leaves every other item. -/
theorem setPix_frame (s : State) (p : Screen) : Frame { pix := true } s (s.setPix p) :=
  Frame.of_masked (fun _ _ => rfl) (fun _ _ => rfl) rfl

/-! ## A pixel's word (R23, R162) -/

/-- A lit word is nonzero, so it is told apart from the word of a pixel that is off. -/
theorem pixWord_ne_zero_iff {w : Nat} (on : PixelOn w) (s : State) (c : Cell) :
    s.pixWord on c ≠ 0 ↔ Screen.get s.pix c = true := by
  cases h : Screen.get s.pix c with
  | true => simpa [State.pixWord, h] using on.property
  | false => simp [State.pixWord, h]

/-- On the pixel toggled, `0 ^^^ on = on` and `on ^^^ on = 0`. -/
theorem pixWord_toggle_same {w : Nat} (on : PixelOn w) (s : State) (c : Cell) :
    (s.setPix (Screen.toggle s.pix c)).pixWord on c = s.pixWord on c ^^^ on.val := by
  cases h : Screen.get s.pix c with
  | true => simp [State.pixWord, Screen.get_toggle, h]
  | false => simp [State.pixWord, Screen.get_toggle, h]

theorem pixWord_toggle_other {w : Nat} (on : PixelOn w) (s : State) {c d : Cell} (hd : d ≠ c) :
    (s.setPix (Screen.toggle s.pix c)).pixWord on d = s.pixWord on d := by
  simp only [State.pixWord, State.setPix_pix, Screen.get_toggle, if_neg hd]

/-! ## The obligations -/

/-- Settles O49: the operation writes the clear screen and nothing else. -/
theorem clsClearsTheScreen : Obligations.ClsClearsTheScreen := by
  intro s
  exact ⟨by decide, s.setPix Screen.clear, exec_cls s, Screen.get_clear, setPix_frame s Screen.clear⟩

/-- Settles O52, apart for the pixel toggled and for every other one. -/
theorem pixelWordsToggleByXor : Obligations.PixelWordsToggleByXor := by
  intro w on s c d
  refine ⟨pixWord_ne_zero_iff on s c, ?_⟩
  split
  · next hd => subst hd; exact pixWord_toggle_same on s d
  · next hd => exact pixWord_toggle_other on s hd

end Sys2Proof.Machine
end

section
/-! PROOFS. Keypad and timers (45_keypad_timers.md): LD Vx, DT; LD DT, Vx; LD ST, Vx. -/

namespace Sys2Proof

/-! ## The words of the three moves decode to them (R65) -/

theorem decodeWord_wordXKK_ldVxDT (x : Reg) : decodeWord (wordXKK 0xF x 0x07) = .ldVxDT x := by
  obtain ⟨hop, hx, hsub⟩ := fields_wordX (op := 0xF) (sub := 0x07) x (by decide) (by decide)
  simp only [decodeWord, hop, decodeF, hx, hsub]

theorem decodeWord_wordXKK_ldDTVx (x : Reg) : decodeWord (wordXKK 0xF x 0x15) = .ldDTVx x := by
  obtain ⟨hop, hx, hsub⟩ := fields_wordX (op := 0xF) (sub := 0x15) x (by decide) (by decide)
  simp only [decodeWord, hop, decodeF, hx, hsub]

theorem decodeWord_wordXKK_ldSTVx (x : Reg) : decodeWord (wordXKK 0xF x 0x18) = .ldSTVx x := by
  obtain ⟨hop, hx, hsub⟩ := fields_wordX (op := 0xF) (sub := 0x18) x (by decide) (by decide)
  simp only [decodeWord, hop, decodeF, hx, hsub]

/-- A word of format X, its constant bits first. -/
theorem ofNat_eq_wordXKK (op : Nat) (x : Reg) (sub : Nat) :
    BitVec.ofNat 16 (op * 0x1000 + sub + x.val * 0x100) = wordXKK op x sub := by
  rw [wordXKK, Nat.add_right_comm]

end Sys2Proof

namespace Sys2Proof.Machine

/-! ## What their execute phase answers -/

theorem exec_ldVxDT (x : Reg) (s : State) : exec (.ldVxDT x) s = .next (s.setV x s.DT) := rfl

theorem exec_ldDTVx (x : Reg) (s : State) : exec (.ldDTVx x) s = .next (s.setDT s.V[x]) := rfl

theorem exec_ldSTVx (x : Reg) (s : State) : exec (.ldSTVx x) s = .next (s.setST s.V[x]) := rfl

/-- Writing DT leaves every other item. -/
theorem setDT_frame (s : State) (v : Byte) : Frame { DT := true } s (s.setDT v) :=
  Frame.of_masked (fun _ _ => rfl) (fun _ _ => rfl) rfl

/-- Writing ST leaves every other item. -/
theorem setST_frame (s : State) (v : Byte) : Frame { ST := true } s (s.setST v) :=
  Frame.of_masked (fun _ _ => rfl) (fun _ _ => rfl) rfl

/-! ## The opcode after a step is the word the step fetched (R83) -/

theorem outcome_storeBytes_opcode {s t : State} {a : Nat} {bs : List Byte}
    (h : outcome (s.storeBytes a bs) = .next t) : t.opcode = s.opcode := by
  obtain ⟨rfl, -⟩ := outcome_storeBytes_next h
  rw [State.putBytes_eq]

/-- No operation writes `opcode`: only the latch of the fetched word does. -/
theorem exec_keeps_opcode {i : Instr} {s t : State} (h : exec i s = .next t) : t.opcode = s.opcode := by
  cases i with
  | ldB x | storeRegs x => exact outcome_storeBytes_opcode h
  | drw x y n =>
    rcases execDrw_cases x y n s with ⟨-, e⟩ | ⟨-, -, -, e⟩ <;> cases e.symm.trans h
    rfl
  | loadRegs x =>
    simp only [exec, execLoadRegs] at h
    split at h <;> cases h
    rfl
  | ldVxK x =>
    simp only [exec, execLdVxK] at h
    split at h <;> cases h <;> rfl
  | skp x | sknp x =>
    simp only [exec, execSkp, execSknp] at h
    split at h <;> cases h
    exact State.skipIf_opcode _ _
  | seImm | sneImm | seReg | sneReg => cases h; exact State.skipIf_opcode _ _
  | ret => cases h; exact State.popReturn_opcode _
  | call nnn => cases h; exact State.callTo_opcode _ _
  | _ => cases h; rfl

/-- A step after which `opcode` holds a word of `i` ran the execute phase of `i`, then the tick. -/
theorem step_next_of_opcode {s t : State} {i : Instr} (h : step s = .next t) (hi : decodeWord t.opcode = i) :
    ∃ u : State, exec i (s.beginStep t.opcode) = .next u ∧ t = u.tick := by
  obtain ⟨w, u, -, hu, rfl⟩ := step_next h
  have hw : u.tick.opcode = w := by
    rw [State.tick_opcode, exec_keeps_opcode hu, State.beginStep_opcode]
  rw [hw] at hi ⊢
  exact ⟨u, hi ▸ hu, rfl⟩

/-- For an operation that always completes, by the update `f`, that gives the state after the step. -/
theorem step_eq_tick_of_opcode {s t : State} {i : Instr} {f : State → State} (hf : ∀ b, exec i b = .next (f b))
    (h : step s = .next t) (hi : decodeWord t.opcode = i) : t = (f (s.beginStep t.opcode)).tick := by
  obtain ⟨u, hu, ht⟩ := step_next_of_opcode h hi
  rw [hf] at hu
  cases hu
  exact ht

/-! ## What stands after the step's tick (R173, R174, R175) -/

theorem ldVxDT_after_step {s t : State} {x : Reg} (h : step s = .next t) (hi : decodeWord t.opcode = .ldVxDT x) :
    t.V[x] = s.DT ∧ t.DT.toNat = s.DT.toNat - 1 := by
  rw [step_eq_tick_of_opcode (exec_ldVxDT x) h hi]
  simp [toNat_countDown]

theorem ldDTVx_after_step {s t : State} {x : Reg} (h : step s = .next t) (hi : decodeWord t.opcode = .ldDTVx x) :
    t.DT.toNat = s.V[x].toNat - 1 := by
  rw [step_eq_tick_of_opcode (exec_ldDTVx x) h hi]
  simp [toNat_countDown]

/-- The tick finds V[x] in ST: at 1 it requests a tone, at 0 it does not (R87). -/
theorem ldSTVx_after_step {s t : State} {x : Reg} (h : step s = .next t) (hi : decodeWord t.opcode = .ldSTVx x) :
    t.ST.toNat = s.V[x].toNat - 1 ∧ (s.V[x] = 1 → t.toneReq = true) ∧ (s.V[x] = 0 → t.toneReq = false) := by
  rw [step_eq_tick_of_opcode (exec_ldSTVx x) h hi]
  refine ⟨by simp [toNat_countDown], fun h1 => ?_, fun h0 => ?_⟩
  · simp [h1, toneOf]
  · simp [h0, toneOf]

/-! ## The obligation -/

/-- Settles O55: each move is one write of the execute phase, and the step's tick then counts down what it left. -/
theorem timerMoves : Obligations.TimerMoves := by
  intro x s
  have hword (sub : Nat) := congrArg decodeWord (ofNat_eq_wordXKK 0xF x sub)
  exact ⟨(hword 0x07).trans (decodeWord_wordXKK_ldVxDT x), (hword 0x15).trans (decodeWord_wordXKK_ldDTVx x),
    (hword 0x18).trans (decodeWord_wordXKK_ldSTVx x),
    ⟨s.setV x s.DT, exec_ldVxDT x s, getElem_setV s x s.DT, setV_frame s x s.DT⟩,
    ⟨s.setDT s.V[x], exec_ldDTVx x s, rfl, setDT_frame s s.V[x]⟩,
    ⟨s.setST s.V[x], exec_ldSTVx x s, rfl, setST_frame s s.V[x]⟩,
    fun t ht => ⟨ldVxDT_after_step ht, ldDTVx_after_step ht, ldSTVx_after_step ht⟩⟩

end Sys2Proof.Machine
end

section
/-! PROOFS. Construction and loading (70_reset_and_hazards.md): the font's place in memory, and the load. -/

namespace Sys2Proof.Machine

open Sys2Proof.Config

/-! ## What a load leaves (R223) -/

/-- A ROM that fits writes the cells it is copied to and nothing else. -/
theorem romCells_frame (s : State) (bytes : List Byte) :
    Frame { cells := (List.range bytes.length).map (fun k => progBase + k) } s
      (s.putBytes (romCells progBase bytes)) := by
  rw [← romCells_fst]
  exact putBytes_frame s _

/-- Byte k of a ROM that fits stands at 0x200 + k. -/
theorem byteAt_putBytes_romCells (s : State) (bytes : List Byte) (k : Nat) (h : k < bytes.length) :
    (s.putBytes (romCells progBase bytes)).byteAt (progBase + k) = bytes[k] := by
  have hd : ((romCells progBase bytes).map Prod.fst).Nodup := by
    rw [romCells_fst]
    exact List.nodup_range.map (add_right_injective progBase)
  exact State.byteAt_putBytes_of_mem s _ hd _ _ (mem_romCells progBase bytes k h)

/-- No load, of any length, reaches the memory below 0x200. -/
theorem byteAt_load_of_lt (s : State) (bytes : List Byte) {a : Nat} (ha : a < progBase) :
    (s.load bytes).1.byteAt a = s.byteAt a := by
  rcases le_or_gt bytes.length romMax with h | h
  · rw [load_fits h]
    refine (romCells_frame s bytes).cells a ?_
    rw [List.mem_map]
    rintro ⟨k, -, hk⟩
    omega
  · rw [load_too_large h]

/-! ## The font after construction (R221) -/

/-- Before any write, byte j of the font is at 0x050 + j. -/
theorem byteAt_construct_font (p : Params) (j : Nat) (h : j < fontSize) :
    (State.construct p).byteAt (fontBase + j) = p.font[j] := by
  have hin : fontBase ≤ fontBase + j ∧ fontBase + j < fontBase + fontSize := by omega
  change unlisted p.font (fontBase + j) = p.font[j]
  simp only [unlisted, dif_pos hin, Nat.add_sub_cancel_left]

/-! ## Which steps write memory (R30) -/

@[simp] theorem byteAt_beginStep (s : State) (w : Word) (a : Nat) : (s.beginStep w).byteAt a = s.byteAt a :=
  State.byteAt_congr (State.beginStep_mem s w) (State.beginStep_params s w) a

@[simp] theorem byteAt_tick (s : State) (a : Nat) : s.tick.byteAt a = s.byteAt a := rfl

@[simp] theorem byteAt_skipIf (s : State) (c : Bool) (a : Nat) : (s.skipIf c).byteAt a = s.byteAt a :=
  State.byteAt_congr (State.skipIf_mem s c) (State.skipIf_params s c) a

/-- An execute phase that completes leaves every byte of memory, unless it is that of `Fx33` or `Fx55`. -/
theorem exec_keeps_bytes_or_stores {i : Instr} {s t : State} (h : exec i s = .next t) :
    (∀ a, t.byteAt a = s.byteAt a) ∨ ∃ x : Reg, i = .ldB x ∨ i = .storeRegs x := by
  cases i with
  | ldB x => exact .inr ⟨x, .inl rfl⟩
  | storeRegs x => exact .inr ⟨x, .inr rfl⟩
  | drw x y n =>
    rcases execDrw_cases x y n s with ⟨-, e⟩ | ⟨-, -, -, e⟩ <;> cases e.symm.trans h
    exact .inl fun _ => rfl
  | loadRegs x =>
    simp only [exec, execLoadRegs] at h
    split at h <;> cases h
    exact .inl fun _ => rfl
  | ldVxK x =>
    simp only [exec, execLdVxK] at h
    split at h <;> cases h <;> exact .inl fun _ => rfl
  | skp x | sknp x =>
    simp only [exec, execSkp, execSknp] at h
    split at h <;> cases h
    exact .inl (byteAt_skipIf _ _)
  | seImm | sneImm | seReg | sneReg => cases h; exact .inl (byteAt_skipIf _ _)
  | ret => cases h; exact .inl (State.byteAt_congr (State.popReturn_mem _) (State.popReturn_params _))
  | call nnn => cases h; exact .inl (State.byteAt_congr (State.callTo_mem _ _) (State.callTo_params _ _))
  | _ => cases h; exact .inl fun _ => rfl

/-- A step after which some byte of memory differs ran `Fx33` or `Fx55`. -/
theorem step_alters_byte {s t : State} {a : Nat} (h : step s = .next t) (ha : t.byteAt a ≠ s.byteAt a) :
    ∃ x : Reg, decodeWord t.opcode = .ldB x ∨ decodeWord t.opcode = .storeRegs x := by
  obtain ⟨u, hu, ht⟩ := step_next_of_opcode h rfl
  refine (exec_keeps_bytes_or_stores hu).resolve_left fun hkeep => ha ?_
  calc t.byteAt a
    _ = u.byteAt a := by rw [ht, byteAt_tick]
    _ = s.byteAt a := by rw [hkeep, byteAt_beginStep]

/-! ## The obligations -/

/-- Settles O58: construction lists no cell, so the font reads as the table; a load writes from 0x200 on, above the font. -/
theorem fontIsCopiedAtConstruction : Obligations.FontIsCopiedAtConstruction := by
  refine ⟨fun p d r => ?_, fun s t a _ hle => ⟨fun bytes => ?_, step_alters_byte⟩⟩
  · have hj : 5 * d.val + r.val < fontSize := by
      rw [fontSize]
      omega
    rw [Nat.add_assoc, byteAt_construct_font p _ hj, getElem?_pos p.font _ hj]
  · exact byteAt_load_of_lt s bytes (Nat.lt_of_le_of_lt hle (by decide))

/-- Settles O59: the limit is the model's own, and a load that fits is one write of the ROM's cells. -/
theorem loadCopiesOrFails : Obligations.LoadCopiesOrFails := by
  intro s bytes
  refine ⟨fun hfits => ⟨s.putBytes (romCells progBase bytes), load_fits hfits, fun k => ?_, romCells_frame s bytes⟩,
    load_too_large⟩
  exact byteAt_putBytes_romCells s bytes k.val k.isLt

end Sys2Proof.Machine
end

section
/-! PROOFS. Encoding (30_encoding.md): decode and encode invert each other, and the decoder follows the opcode map. -/

namespace Sys2Proof

/-! ## UNKNOWN (R71) -/

/-- The table of R71 in plain arithmetic. -/
theorem unknownWord_iff (w : Word) : unknownWord w = true ↔
    (w.toNat / 4096 = 0x0 ∧ w.toNat ≠ 0x00E0 ∧ w.toNat ≠ 0x00EE) ∨
    (w.toNat / 4096 = 0x8 ∧ ((0x8 ≤ w.toNat % 16 ∧ w.toNat % 16 ≤ 0xD) ∨ w.toNat % 16 = 0xF)) ∨
    (w.toNat / 4096 = 0xE ∧ w.toNat % 256 ≠ 0x9E ∧ w.toNat % 256 ≠ 0xA1) ∨
    (w.toNat / 4096 = 0xF ∧ w.toNat % 256 ∉ [0x07, 0x0A, 0x15, 0x18, 0x1E, 0x29, 0x33, 0x55, 0x65]) := by
  have h8 : unknown8 w.toNat = true ↔ (0x8 ≤ w.toNat % 16 ∧ w.toNat % 16 ≤ 0xD) ∨ w.toNat % 16 = 0xF := by
    simp only [unknown8, List.contains_iff_mem, List.mem_cons, List.not_mem_nil, or_false]
    omega
  simp [unknownWord, unknown0, unknownE, unknownF, h8, or_assoc]

/-- Family 0 without its two operations. -/
theorem decode0_eq_unknown {w : Word} (h0 : w.toNat ≠ 0x00E0) (h1 : w.toNat ≠ 0x00EE) : decode0 w = .unknown w := by
  have hcls : w ≠ 0x00E0 := fun e => h0 (congrArg BitVec.toNat e)
  have hret : w ≠ 0x00EE := fun e => h1 (congrArg BitVec.toNat e)
  rw [decode0, if_neg hcls, if_neg hret]

theorem decode8_eq_unknown {w : Word} (h : (0x8 ≤ w.toNat % 16 ∧ w.toNat % 16 ≤ 0xD) ∨ w.toNat % 16 = 0xF) :
    decode8 w = .unknown w := by
  unfold decode8
  split
  case h_10 => rfl
  all_goals omega

theorem decodeE_eq_unknown {w : Word} (h0 : w.toNat % 256 ≠ 0x9E) (h1 : w.toNat % 256 ≠ 0xA1) :
    decodeE w = .unknown w := by
  unfold decodeE
  split
  case h_3 => rfl
  all_goals omega

theorem decodeF_eq_unknown {w : Word}
    (h : w.toNat % 256 ∉ [0x07, 0x0A, 0x15, 0x18, 0x1E, 0x29, 0x33, 0x55, 0x65]) : decodeF w = .unknown w := by
  simp only [List.mem_cons, List.not_mem_nil, or_false, not_or] at h
  unfold decodeF
  split
  case h_10 => rfl
  all_goals omega

/-- Every word of R71's table decodes to UNKNOWN. -/
theorem decodeWord_of_unknownWord {w : Word} (h : unknownWord w = true) : decodeWord w = .unknown w := by
  rcases (unknownWord_iff w).1 h with ⟨hop, h0, h1⟩ | ⟨hop, hsub⟩ | ⟨hop, h0, h1⟩ | ⟨hop, hsub⟩
  · simpa [decodeWord, opField, hop] using decode0_eq_unknown h0 h1
  · simpa [decodeWord, opField, hop] using decode8_eq_unknown hsub
  · simpa [decodeWord, opField, hop] using decodeE_eq_unknown h0 h1
  · simpa [decodeWord, opField, hop] using decodeF_eq_unknown hsub

/-! ## Decoding what was encoded -/

/-- Format A. -/
theorem decodeWord_wordNNN {op : Nat} {f : Addr12 → Instr} (nnn : Addr12) (ho : op < 16)
    (hf : ∀ w : Word, opField w = op → decodeWord w = f (nnnField w)) : decodeWord (wordNNN op nnn) = f nnn := by
  obtain ⟨hop, hnnn⟩ := fields_wordNNN nnn ho
  rw [hf _ hop, hnnn]

/-- Format I. -/
theorem decodeWord_wordXKK {op : Nat} {f : Reg → Byte → Instr} (x : Reg) (kk : Byte) (ho : op < 16)
    (hf : ∀ w : Word, opField w = op → decodeWord w = f (xField w) (kkField w)) :
    decodeWord (wordXKK op x kk.toNat) = f x kk := by
  obtain ⟨hop, hx, hkk⟩ := fields_wordXKK x kk ho
  rw [hf _ hop, hx, hkk]

/-- Format D, and the register skips. -/
theorem decodeWord_wordXYN {op : Nat} {f : Reg → Reg → Nibble → Instr} (x y : Reg) (n : Nibble) (ho : op < 16)
    (hf : ∀ w : Word, opField w = op → decodeWord w = f (xField w) (yField w) (nField w)) :
    decodeWord (wordXYN op x y n.val) = f x y n := by
  obtain ⟨hop, hx, hy, hn⟩ := fields_wordXYN x y n ho
  rw [hf _ hop, hx, hy, hn]

/-- Format R: family 8. -/
theorem decodeWord_wordXY {sub : Nat} {f : Reg → Reg → Instr} (x y : Reg) (hs : sub < 16)
    (hf : ∀ w : Word, w.toNat % 16 = sub → decode8 w = f (xField w) (yField w)) :
    decodeWord (wordXYN 0x8 x y sub) = f x y := by
  obtain ⟨hop, hx, hy, hsub⟩ := fields_wordXY (op := 0x8) x y (by decide) hs
  have h8 : decodeWord (wordXYN 0x8 x y sub) = decode8 (wordXYN 0x8 x y sub) := by simp only [decodeWord, hop]
  rw [h8, hf _ hsub, hx, hy]

/-- Format X: families E and F. -/
theorem decodeWord_wordX {op sub : Nat} {f : Reg → Instr} (x : Reg) (ho : op < 16) (hs : sub < 256)
    (hf : ∀ w : Word, opField w = op → w.toNat % 0x100 = sub → decodeWord w = f (xField w)) :
    decodeWord (wordXKK op x sub) = f x := by
  obtain ⟨hop, hx, hsub⟩ := fields_wordX x ho hs
  rw [hf _ hop hsub, hx]

/-- The encoding of a well-formed instruction decodes to it, format by format. -/
theorem decodeWord_encodeWord {i : Instr} (h : wellFormed i = true) : decodeWord (encodeWord i) = i := by
  cases i with
  | cls | ret => decide
  | jp nnn | call nnn | ldI nnn | jpV0 nnn =>
    exact decodeWord_wordNNN nnn (by decide) fun w hop => by simp only [decodeWord, hop]
  | seImm x kk | sneImm x kk | ldImm x kk | addImm x kk | rnd x kk =>
    exact decodeWord_wordXKK x kk (by decide) fun w hop => by simp only [decodeWord, hop]
  | seReg x y n | sneReg x y n | drw x y n =>
    exact decodeWord_wordXYN x y n (by decide) fun w hop => by simp only [decodeWord, hop]
  | ldReg x y | orReg x y | andReg x y | xorReg x y | addReg x y | subReg x y | shr x y | subn x y | shl x y =>
    exact decodeWord_wordXY x y (by decide) fun w hsub => by simp only [decode8, hsub]
  | skp x | sknp x =>
    exact decodeWord_wordX x (by decide) (by decide) fun w hop hsub => by simp only [decodeWord, hop, decodeE, hsub]
  | ldVxDT x | ldVxK x | ldDTVx x | ldSTVx x | addI x | ldF x | ldB x | storeRegs x | loadRegs x =>
    exact decodeWord_wordX x (by decide) (by decide) fun w hop hsub => by simp only [decodeWord, hop, decodeF, hsub]
  | unknown w => exact decodeWord_of_unknownWord h

/-! ## Words with their constant bits written first -/

/-- A word of format R, its constant bits first. -/
theorem ofNat_eq_wordXYN (op : Nat) (x y : Reg) (sub : Nat) :
    BitVec.ofNat 16 (op * 0x1000 + sub + x.val * 0x100 + y.val * 0x10) = wordXYN op x y sub := by
  rw [wordXYN]
  congr 1
  omega

/-- Format R: family 8. -/
theorem decodeWord_ofNat_XY {i : Instr} {x y : Reg} (sub : Nat) (hwf : wellFormed i = true)
    (he : encodeWord i = wordXYN 0x8 x y sub) :
    decodeWord (BitVec.ofNat 16 (0x8 * 0x1000 + sub + x.val * 0x100 + y.val * 0x10)) = i := by
  rw [ofNat_eq_wordXYN, ← he, decodeWord_encodeWord hwf]

/-- Format X: families E and F. -/
theorem decodeWord_ofNat_X {i : Instr} {x : Reg} (op sub : Nat) (hwf : wellFormed i = true)
    (he : encodeWord i = wordXKK op x sub) :
    decodeWord (BitVec.ofNat 16 (op * 0x1000 + sub + x.val * 0x100)) = i := by
  rw [ofNat_eq_wordXKK, ← he, decodeWord_encodeWord hwf]

/-- Settles O1: the two bytes form the encoded word again, and that word decodes to the instruction. -/
theorem decodeInvertsEncode : Obligations.DecodeInvertsEncode := by
  intro i rest h
  rw [encode, wordOfBytes_bytesOfWord, decodeWord_encodeWord h]

/-! ## Encoding what was decoded -/

/-- A word is put together from its family and its address field. -/
theorem wordNNN_nnnField {w : Word} {op : Nat} (hop : opField w = op) : wordNNN op (nnnField w) = w := by
  have ho := hop ▸ opField_lt w
  apply BitVec.eq_of_toNat_eq
  rw [toNat_wordNNN _ ho, toNat_nnnField, ← hop, opField]
  omega

theorem wordXKK_xField {w : Word} {op sub : Nat} (hop : opField w = op) (hsub : w.toNat % 0x100 = sub) :
    wordXKK op (xField w) sub = w := by
  have ho := hop ▸ opField_lt w
  apply BitVec.eq_of_toNat_eq
  rw [toNat_wordXKK _ ho (by omega), ← hop, opField, xField]
  dsimp only
  omega

theorem wordXKK_kkField {w : Word} {op : Nat} (hop : opField w = op) :
    wordXKK op (xField w) (kkField w).toNat = w :=
  wordXKK_xField hop (toNat_kkField w).symm

theorem wordXYN_fields {w : Word} {op sub : Nat} (hop : opField w = op) (hsub : w.toNat % 16 = sub) :
    wordXYN op (xField w) (yField w) sub = w := by
  have ho := hop ▸ opField_lt w
  apply BitVec.eq_of_toNat_eq
  rw [toNat_wordXYN _ _ ho (by omega), toNat_eq_fields w, hop, ← hsub, nField]

/-- What a decoded word is held to: it is the encoding of the well-formed instruction it decodes to. -/
def DecodesTo (w : Word) (i : Instr) : Prop := wellFormed i = true ∧ encodeWord i = w

theorem decodesTo_unknown {w : Word} (h : unknownWord w = true) : DecodesTo w (.unknown w) := ⟨h, rfl⟩

theorem decodesTo_decode0 {w : Word} (hop : opField w = 0x0) : DecodesTo w (decode0 w) := by
  unfold decode0
  split
  · next h => exact ⟨rfl, h.symm⟩
  · next hcls =>
    split
    · next h => exact ⟨rfl, h.symm⟩
    · next hret =>
      refine decodesTo_unknown ((unknownWord_iff w).2 (.inl ⟨hop, fun e => hcls ?_, fun e => hret ?_⟩))
      · exact BitVec.eq_of_toNat_eq e
      · exact BitVec.eq_of_toNat_eq e

theorem decodesTo_decode8 {w : Word} (hop : opField w = 0x8) : DecodesTo w (decode8 w) := by
  unfold decode8
  split
  case h_10 =>
    simp only [imp_false] at *
    exact decodesTo_unknown ((unknownWord_iff w).2 (.inr (.inl ⟨hop, by omega⟩)))
  all_goals
    next hsub => exact ⟨rfl, wordXYN_fields hop hsub⟩

theorem decodesTo_decodeE {w : Word} (hop : opField w = 0xE) : DecodesTo w (decodeE w) := by
  unfold decodeE
  split
  case h_3 h0 h1 => exact decodesTo_unknown ((unknownWord_iff w).2 (.inr (.inr (.inl ⟨hop, h0, h1⟩))))
  all_goals
    next hsub => exact ⟨rfl, wordXKK_xField hop hsub⟩

theorem decodesTo_decodeF {w : Word} (hop : opField w = 0xF) : DecodesTo w (decodeF w) := by
  unfold decodeF
  split
  case h_10 =>
    refine decodesTo_unknown ((unknownWord_iff w).2 (.inr (.inr (.inr ⟨hop, ?_⟩))))
    simp only [imp_false] at *
    simp only [List.mem_cons, List.not_mem_nil, or_false, not_or]
    omega
  all_goals
    next hsub => exact ⟨rfl, wordXKK_xField hop hsub⟩

/-- Every word is the encoding of the well-formed instruction it decodes to, family by family. -/
theorem decodesTo_decodeWord (w : Word) : DecodesTo w (decodeWord w) := by
  unfold decodeWord
  split
  case h_1 hop => exact decodesTo_decode0 hop
  case h_9 hop => exact decodesTo_decode8 hop
  case h_15 hop => exact decodesTo_decodeE hop
  case h_16 =>
    have := opField_lt w
    simp only [imp_false] at *
    exact decodesTo_decodeF (by omega)
  case h_2 hop | h_3 hop | h_11 hop | h_12 hop => exact ⟨rfl, wordNNN_nnnField hop⟩
  case h_4 hop | h_5 hop | h_7 hop | h_8 hop | h_13 hop => exact ⟨rfl, wordXKK_kkField hop⟩
  case h_6 hop | h_10 hop | h_14 hop => exact ⟨rfl, wordXYN_fields hop rfl⟩

/-- Settles O2. -/
theorem encodeInvertsDecode : Obligations.EncodeInvertsDecode := decodesTo_decodeWord

/-- Settles O4: a word that decodes to UNKNOWN is a well-formed one, so it stands in R71's table, and conversely. -/
theorem unknownEncodingsByFamily : Obligations.UnknownEncodingsByFamily := by
  intro w
  rw [← unknownWord_iff]
  refine ⟨fun h => ?_, decodeWord_of_unknownWord⟩
  obtain ⟨hwf, -⟩ := decodesTo_decodeWord w
  rwa [h] at hwf

/-- Settles O5, each word by running the decoder on it. -/
theorem sampleWordsDecode : Obligations.SampleWordsDecode := by
  refine ⟨?_, ?_, ?_, ?_, ?_, ?_, ?_, ?_, ?_⟩ <;> decide

end Sys2Proof
end

section
/-! PROOFS. Encoding (30_encoding.md): the rows of the opcode map a word selects (R65). -/

namespace Sys2Proof

/-! ## What selecting a row says of the fields, by the row's mask -/

theorem selects_FFFF (w v : Word) :
    selects w (0xFFFF#16, v) = (opField w == v.toNat / 0x1000 && w.toNat % 0x1000 == v.toNat % 0x1000) := by
  have hw : w &&& 0xFFFF#16 = w := BitVec.and_allOnes
  rw [selects, hw, Bool.eq_iff_iff]
  simp only [decide_eq_true_eq, Bool.and_eq_true, beq_iff_eq, opField, ← BitVec.toNat_inj]
  omega

theorem selects_F000 (w v : Word) :
    selects w (0xF000#16, v) = (opField w == v.toNat / 0x1000 && v.toNat % 0x1000 == 0) := by
  rw [selects, Bool.eq_iff_iff]
  simp only [decide_eq_true_eq, Bool.and_eq_true, beq_iff_eq, opField, ← BitVec.toNat_inj, toNat_and_F000]
  omega

theorem selects_F00F (w v : Word) :
    selects w (0xF00F#16, v) = (opField w == v.toNat / 0x1000 && w.toNat % 16 == v.toNat % 0x1000) := by
  rw [selects, Bool.eq_iff_iff]
  simp only [decide_eq_true_eq, Bool.and_eq_true, beq_iff_eq, opField, ← BitVec.toNat_inj, toNat_and_F00F]
  omega

theorem selects_F0FF (w v : Word) :
    selects w (0xF0FF#16, v) = (opField w == v.toNat / 0x1000 && w.toNat % 256 == v.toNat % 0x1000) := by
  rw [selects, Bool.eq_iff_iff]
  simp only [decide_eq_true_eq, Bool.and_eq_true, beq_iff_eq, opField, ← BitVec.toNat_inj, toNat_and_F0FF]
  omega

/-! ## The rows a word of each family selects -/

/-- The rows of one family. -/
def rowsOfFamily (op : Nat) : List (Word × Word) := opcodeMap.filter (fun row => op == row.2.toNat / 0x1000)

theorem mask_of_mem_opcodeMap : ∀ row ∈ opcodeMap,
    row.1 = 0xFFFF#16 ∨ row.1 = 0xF000#16 ∨ row.1 = 0xF00F#16 ∨ row.1 = 0xF0FF#16 := by simp [opcodeMap]

/-- Every mask keeps the family, so a row selects words of its own family only. -/
theorem family_of_selects {w : Word} {row : Word × Word} (hm : row ∈ opcodeMap) (hs : selects w row = true) :
    opField w = row.2.toNat / 0x1000 := by
  have hmask := mask_of_mem_opcodeMap row hm
  obtain ⟨m, v⟩ := row
  dsimp only at hmask
  rcases hmask with rfl | rfl | rfl | rfl
  · simp_all [selects_FFFF]
  · simp_all [selects_F000]
  · simp_all [selects_F00F]
  · simp_all [selects_F0FF]

theorem filter_selects_eq {w : Word} {op : Nat} (hop : opField w = op) :
    opcodeMap.filter (selects w) = (rowsOfFamily op).filter (selects w) := by
  rw [rowsOfFamily, List.filter_filter]
  refine List.filter_congr fun row hm => ?_
  cases hs : selects w row with
  | false => rfl
  | true => simp [← hop, family_of_selects hm hs]

theorem filter_selects_decode0 {w : Word} (hop : opField w = 0) :
    opcodeMap.filter (selects w) = (rowOf (decode0 w)).toList := by
  rw [filter_selects_eq hop, show rowsOfFamily 0 = [(0xFFFF, 0x00E0), (0xFFFF, 0x00EE)] by decide]
  unfold decode0
  split
  · next h => subst h; decide
  · next hcls =>
    split
    · next h => subst h; decide
    · next hret =>
      have hw : w &&& 0xFFFF#16 = w := BitVec.and_allOnes
      simpa [selects, rowOf, hw] using ⟨hcls, hret⟩

theorem filter_selects_decode8 {w : Word} (hop : opField w = 8) :
    opcodeMap.filter (selects w) = (rowOf (decode8 w)).toList := by
  rw [filter_selects_eq hop, show rowsOfFamily 8 = [(0xF00F, 0x8000), (0xF00F, 0x8001), (0xF00F, 0x8002),
    (0xF00F, 0x8003), (0xF00F, 0x8004), (0xF00F, 0x8005), (0xF00F, 0x8006), (0xF00F, 0x8007), (0xF00F, 0x800E)]
    by decide]
  unfold decode8
  split <;> simp_all [selects_F00F, rowOf]

theorem filter_selects_decodeE {w : Word} (hop : opField w = 0xE) :
    opcodeMap.filter (selects w) = (rowOf (decodeE w)).toList := by
  rw [filter_selects_eq hop, show rowsOfFamily 0xE = [(0xF0FF, 0xE09E), (0xF0FF, 0xE0A1)] by decide]
  unfold decodeE
  split <;> simp_all [selects_F0FF, rowOf]

theorem filter_selects_decodeF {w : Word} (hop : opField w = 0xF) :
    opcodeMap.filter (selects w) = (rowOf (decodeF w)).toList := by
  rw [filter_selects_eq hop, show rowsOfFamily 0xF = [(0xF0FF, 0xF007), (0xF0FF, 0xF00A), (0xF0FF, 0xF015),
    (0xF0FF, 0xF018), (0xF0FF, 0xF01E), (0xF0FF, 0xF029), (0xF0FF, 0xF033), (0xF0FF, 0xF055), (0xF0FF, 0xF065)]
    by decide]
  unfold decodeF
  split <;> simp_all [selects_F0FF, rowOf]

/-- A family that is one row: every word of it selects that row and no other. -/
theorem filter_selects_family {w v : Word} {op : Nat} (hop : opField w = op) (hrows : rowsOfFamily op = [(0xF000, v)])
    (hv : v.toNat % 0x1000 = 0) (hfam : v.toNat / 0x1000 = op) : opcodeMap.filter (selects w) = [(0xF000, v)] := by
  have hs : selects w (0xF000#16, v) = true := by simp [selects_F000, hv, hfam, hop]
  rw [filter_selects_eq hop, hrows]
  exact List.filter_eq_self.2 (by simpa using hs)

/-- Settles O3, family by family as the decoder goes. -/
theorem decodeFollowsOpcodeMap : Obligations.DecodeFollowsOpcodeMap := by
  intro w
  unfold decodeWord
  split
  case h_1 hop => exact filter_selects_decode0 hop
  case h_9 hop => exact filter_selects_decode8 hop
  case h_15 hop => exact filter_selects_decodeE hop
  case h_16 =>
    have := opField_lt w
    simp only [imp_false] at *
    exact filter_selects_decodeF (by omega)
  all_goals
    next hop => exact filter_selects_family hop (by decide) (by decide) (by decide)

end Sys2Proof
end

section
/-! PROOFS. The execute phase: what an operation with more than one way to go can answer, and every operation's frame. -/

namespace Sys2Proof.Machine

open Sys2Proof.Config

/-! ## What the execute phase answers, operation by operation -/

theorem exec_ret (s : State) : exec .ret s = .next s.popReturn := rfl

theorem exec_call (nnn : Addr12) (s : State) : exec (.call nnn) s = .next (s.callTo (zext nnn)) := rfl

theorem exec_ldB (x : Reg) (s : State) : exec (.ldB x) s = outcome (s.storeBytes s.I.toNat (bcdDigits s.V[x])) := rfl

theorem exec_storeRegs (x : Reg) (s : State) :
    exec (.storeRegs x) s = outcome (s.storeBytes s.I.toNat (s.regsUpTo x)) := rfl

/-- A skip on a key, SKP with `f` the identity and SKNP with `f` the negation. -/
def keySkip (f : Bool → Bool) (x : Reg) (s : State) : Host.Outcome State Fault Refusal :=
  match keyIndex s.params.keyIndex s.V[x] with
  | .error e => .fault e
  | .ok k => .next (s.skipIf (f (keyDown s.key k)))

theorem exec_skp (x : Reg) (s : State) : exec (.skp x) s = keySkip id x s := rfl

theorem exec_sknp (x : Reg) (s : State) : exec (.sknp x) s = keySkip not x s := rfl

theorem keySkip_of_ok {f : Bool → Bool} {x : Reg} {s : State} {k : Option Key}
    (h : keyIndex s.params.keyIndex s.V[x] = .ok k) : keySkip f x s = .next (s.skipIf (f (keyDown s.key k))) := by
  simp only [keySkip, h]

theorem keySkip_of_error {f : Bool → Bool} {x : Reg} {s : State} {e : Fault}
    (h : keyIndex s.params.keyIndex s.V[x] = .error e) : keySkip f x s = .fault e := by
  simp only [keySkip, h]

/-- A skip on a key that completes had a key number in its register. -/
theorem keySkip_next {f : Bool → Bool} {x : Reg} {s t : State} (h : keySkip f x s = .next t) :
    ∃ k, keyIndex s.params.keyIndex s.V[x] = .ok k ∧ t = s.skipIf (f (keyDown s.key k)) := by
  cases hk : keyIndex s.params.keyIndex s.V[x] with
  | ok k => cases (keySkip_of_ok hk).symm.trans h; exact ⟨k, rfl, rfl⟩
  | error e => cases (keySkip_of_error hk).symm.trans h

/-! ## The key that Fx0A reports (R172) -/

/-- A pick is one of the keys it is made from. -/
theorem mem_of_pickKey {p : KeyPickPolicy} {free : Nat} {ks : List Key} {k : Key} (h : pickKey p free ks = some k) :
    k ∈ ks := by
  match ks, p with
  | [], _ => cases h
  | [_], _ => cases h; exact List.mem_singleton_self _
  | _ :: _ :: _, .any => exact List.mem_of_getElem? h
  | _ :: _ :: _, .lowest => cases h; exact List.mem_cons_self
  | _ :: _ :: _, .highest => exact List.mem_of_getLast? h

/-- A pick is made whenever there is a key to pick. -/
theorem pickKey_isSome {ks : List Key} (p : KeyPickPolicy) (free : Nat) (h : ks ≠ []) :
    ∃ k, pickKey p free ks = some k := by
  match ks, p with
  | [], _ => exact absurd rfl h
  | [k], _ => exact ⟨k, rfl⟩
  | k :: k' :: ks, .any =>
    have hlt : free % (ks.length + 2) < (k :: k' :: ks).length := Nat.mod_lt _ (Nat.succ_pos _)
    exact ⟨_, List.getElem?_eq_getElem hlt⟩
  | k :: _ :: _, .lowest => exact ⟨k, rfl⟩
  | _ :: _ :: _, .highest => exact ⟨_, List.getLast?_eq_some_getLast (List.cons_ne_nil _ _)⟩

theorem keysDown_eq_nil {key : Keypad} (h : ∀ k : Key, key[k] = false) : keysDown key = [] :=
  List.eq_nil_iff_forall_not_mem.2 fun k hk => by
    rw [mem_keysDown, h k] at hk
    cases hk

/-- With no key down `Fx0A` waits. -/
theorem exec_ldVxK_of_idle (x : Reg) {s : State} (h : ∀ k : Key, s.key[k] = false) :
    exec (.ldVxK x) s = .next (s.setPc (s.pc - 2)) := by
  simp only [exec, execLdVxK, keysDown_eq_nil h, pickKey]

/-- With a key down it reports the one picked. -/
theorem exec_ldVxK_of_down (x : Reg) {s : State} (h : ∃ k : Key, s.key[k] = true) :
    ∃ k : Key, s.key[k] = true ∧ pickKey s.params.keyPick (freeKeyPick s.fresh) (keysDown s.key) = some k ∧
      exec (.ldVxK x) s = .next (s.setV x (BitVec.ofNat 8 k.val)) := by
  obtain ⟨j, hj⟩ := h
  have hne : keysDown s.key ≠ [] := List.ne_nil_of_mem ((mem_keysDown _ j).2 hj)
  obtain ⟨k, hk⟩ := pickKey_isSome s.params.keyPick (freeKeyPick s.fresh) hne
  exact ⟨k, (mem_keysDown _ k).1 (mem_of_pickKey hk), hk, by simp only [exec, execLdVxK, hk]⟩

/-- The two ways together. -/
theorem exec_ldVxK_next {x : Reg} {s t : State} (h : exec (.ldVxK x) s = .next t) :
    ((∀ k : Key, s.key[k] = false) ∧ t = s.setPc (s.pc - 2)) ∨
    ∃ k : Key, s.key[k] = true ∧ t = s.setV x (BitVec.ofNat 8 k.val) := by
  by_cases hd : ∃ k : Key, s.key[k] = true
  · obtain ⟨k, hk, -, e⟩ := exec_ldVxK_of_down x hd
    cases e.symm.trans h
    exact .inr ⟨k, hk, rfl⟩
  · have hidle : ∀ k : Key, s.key[k] = false := by simpa using hd
    cases (exec_ldVxK_of_idle x hidle).symm.trans h
    exact .inl ⟨hidle, rfl⟩

/-! ## The registers that Fx65 loads (R145) -/

/-- The registers after `Fx65` of x. -/
def State.loadedV (s : State) (x : Reg) : Vector Byte 16 := setRegsFrom s.V 0 ((s.cellsAtI (x.val + 1)).map s.byteAt)

theorem loadedV_get (s : State) (x r : Reg) :
    (s.loadedV x)[r] = if r ≤ x then s.byteAt ((s.I.toNat + r.val) % memSize) else s.V[r] := by
  have hiff : (0 ≤ r.val ∧ r.val < 0 + ((s.cellsAtI (x.val + 1)).map s.byteAt).length) ↔ r ≤ x := by
    simp only [State.cellsAtI, List.length_map, List.length_range, Fin.le_def]
    omega
  rw [State.loadedV, setRegsFrom_get]
  by_cases h : r ≤ x
  · rw [dif_pos (hiff.2 h), if_pos h]
    simp [State.cellsAtI]
  · rw [dif_neg (mt hiff.1 h), if_neg h]

/-- `Fx65` either loads its registers, or faults with the first address out of range. -/
theorem exec_loadRegs_cases (x : Reg) (s : State) :
    (s.reaches s.I.toNat (x.val + 1) ∧ exec (.loadRegs x) s = .next { s with V := s.loadedV x }) ∨
    (s.params.oob = .fault ∧ memSize < s.I.toNat + (x.val + 1) ∧
      exec (.loadRegs x) s = .fault (.addressOutOfRange (max s.I.toNat memSize) .read)) := by
  rcases loadBytes_cases s .read s.I.toNat (x.val + 1) with ⟨hr, e⟩ | ⟨ho, -, ha, e⟩
  · refine .inl ⟨hr, ?_⟩
    simp only [exec, execLoadRegs, e, State.loadedV, State.cellsAtI, List.map_map, Function.comp_def]
  · exact .inr ⟨ho, ha, by simp only [exec, execLoadRegs, e]⟩

theorem exec_loadRegs_next {x : Reg} {s t : State} (h : exec (.loadRegs x) s = .next t) :
    t = { s with V := s.loadedV x } := by
  rcases exec_loadRegs_cases x s with ⟨-, e⟩ | ⟨-, -, e⟩ <;> cases e.symm.trans h
  rfl

theorem exec_drw_next {x y : Reg} {n : Nibble} {s t : State} (h : exec (.drw x y n) s = .next t) :
    t = (s.setPix (drawCells s.pix (s.drawnCells x y n)).1).setV VF
      (flagByte ((s.drawnCells x y n).any (Screen.get s.pix))) := by
  rcases execDrw_cases x y n s with ⟨-, e⟩ | ⟨-, -, -, e⟩ <;> cases e.symm.trans h
  rfl

/-! ## Frames -/

theorem popReturn_frame (s : State) : Frame { pc := true, sp := true, event := true } s s.popReturn := by
  refine Frame.of_masked (fun r _ => by rw [State.popReturn_V]) (fun a _ => ?_) ?_
  · exact State.byteAt_congr (State.popReturn_mem s) (State.popReturn_params s) a
  · unfold State.popReturn; split <;> rfl

theorem callTo_frame (s : State) (target : Word) :
    Frame { pc := true, stack := true, sp := true, event := true } s (s.callTo target) := by
  refine Frame.of_masked (fun r _ => by rw [State.callTo_V]) (fun a _ => ?_) ?_
  · exact State.byteAt_congr (State.callTo_mem s target) (State.callTo_params s target) a
  · unfold State.callTo; split <;> rfl

/-- Reporting an event leaves every other item. -/
theorem report_frame (s : State) (e : Event) : Frame { event := true } s (s.report e) :=
  Frame.of_masked (fun _ _ => rfl) (fun _ _ => rfl) rfl

/-- A draw of a random byte that goes to a register. -/
theorem afterDraw_setV_frame (s : State) (x : Reg) (v : Byte) :
    Frame { regs := [x], rndIn := true } s (s.afterDraw.setV x v) := by
  refine Frame.of_masked (fun r hr => ?_) (fun _ _ => rfl) rfl
  exact get_set_ne _ _ _ _ (by simpa using hr)

theorem drw_frame (s : State) (p : Screen) (v : Byte) :
    Frame { regs := [VF], pix := true } s ((s.setPix p).setV VF v) := by
  refine Frame.of_masked (fun r hr => ?_) (fun _ _ => rfl) rfl
  exact get_set_ne _ _ _ _ (by simpa using hr)

/-- A store at I leaves every item but the cells it reaches. -/
theorem storeCells_frame (s : State) (bs : List Byte) :
    Frame { cells := s.cellsAtI bs.length } s (s.putBytes (storeCells s.I.toNat bs)) := by
  rw [State.cellsAtI, ← storeCells_fst]
  exact putBytes_frame s _

theorem loadedV_frame (s : State) (x : Reg) :
    Frame { regs := (List.finRange 16).filter (fun k => k ≤ x) } s { s with V := s.loadedV x } := by
  refine Frame.of_masked (fun r hr => ?_) (fun _ _ => rfl) rfl
  have hrx : ¬ r ≤ x := by simpa using hr
  rw [loadedV_get, if_neg hrx]

/-- `Fx0A` may write V[x] and pc: it writes one of them. -/
theorem ldVxK_frame {x : Reg} {s t : State} (h : exec (.ldVxK x) s = .next t) :
    Frame { regs := [x], pc := true } s t := by
  rcases exec_ldVxK_next h with ⟨-, rfl⟩ | ⟨k, -, rfl⟩
  · exact Frame.of_masked (fun _ _ => rfl) (fun _ _ => rfl) rfl
  · refine Frame.of_masked (fun r hr => ?_) (fun _ _ => rfl) rfl
    exact get_set_ne _ _ _ _ (by simpa using hr)

/-- An operation that completes writes what R30 lists for it and nothing else. -/
theorem exec_frame {i : Instr} {s t : State} (h : exec i s = .next t) : Frame (writesOf s i) s t := by
  cases i with
  | cls => cases h; exact setPix_frame s _
  | ret => cases h; exact popReturn_frame s
  | call nnn => cases h; exact callTo_frame s _
  | jp | jpV0 => cases h; exact setPc_frame s _
  | seImm | sneImm | seReg | sneReg => cases h; exact skipIf_frame s _
  | skp x => obtain ⟨k, -, rfl⟩ := keySkip_next (f := id) h; exact skipIf_frame s _
  | sknp x => obtain ⟨k, -, rfl⟩ := keySkip_next (f := not) h; exact skipIf_frame s _
  | ldImm x | addImm x | ldReg x | orReg x | andReg x | xorReg x | ldVxDT x => cases h; exact setV_frame s x _
  | addReg x | subReg x | shr x | subn x | shl x => cases h; exact setVFlag_frame s x _ _
  | rnd x => cases h; exact afterDraw_setV_frame s x _
  | ldI | addI | ldF => cases h; exact setI_frame s _
  | ldDTVx => cases h; exact setDT_frame s _
  | ldSTVx => cases h; exact setST_frame s _
  | unknown => cases h; exact report_frame s _
  | ldVxK => exact ldVxK_frame h
  | drw => rw [exec_drw_next h]; exact drw_frame s _ _
  | loadRegs x => rw [exec_loadRegs_next h]; exact loadedV_frame s x
  | ldB x => rw [(outcome_storeBytes_next h).1]; exact storeCells_frame s (bcdDigits s.V[x])
  | storeRegs x =>
    rw [(outcome_storeBytes_next h).1, writesOf, ← length_regsUpTo s x]
    exact storeCells_frame s (s.regsUpTo x)

/-- Settles O21. -/
theorem operationsWriteWhatTheMatrixLists : Obligations.OperationsWriteWhatTheMatrixLists := fun _ _ _ => exec_frame

end Sys2Proof.Machine
end

section
/-! PROOFS. The canonical form of memory (20_memory.md R42; log 28), and the order of a run (R225). -/

namespace Sys2Proof.Machine

open Sys2Proof.Config

/-! ## The execute phase -/

/-- An operation that completes leaves the list of cells as it is, or stores bytes at I. -/
theorem exec_mem {i : Instr} {s t : State} (h : exec i s = .next t) :
    t.mem = s.mem ∨ ∃ bs : List Byte, t = s.putBytes (storeCells s.I.toNat bs) := by
  cases i with
  | ldB x | storeRegs x => exact .inr ⟨_, (outcome_storeBytes_next h).1⟩
  | drw => rw [exec_drw_next h]; exact .inl rfl
  | loadRegs => rw [exec_loadRegs_next h]; exact .inl rfl
  | ldVxK => rcases exec_ldVxK_next h with ⟨-, rfl⟩ | ⟨k, -, rfl⟩ <;> exact .inl rfl
  | skp => obtain ⟨k, -, rfl⟩ := keySkip_next (f := id) h; exact .inl (State.skipIf_mem s _)
  | sknp => obtain ⟨k, -, rfl⟩ := keySkip_next (f := not) h; exact .inl (State.skipIf_mem s _)
  | seImm | sneImm | seReg | sneReg => cases h; exact .inl (State.skipIf_mem s _)
  | ret => cases h; exact .inl (State.popReturn_mem s)
  | call => cases h; exact .inl (State.callTo_mem s _)
  | _ => cases h; exact .inl rfl

/-- The cells of a store are below 4096, whatever the policy lets its addresses be. -/
theorem storeCells_lt {a : Nat} {bs : List Byte} {c : Nat × Byte} (h : c ∈ storeCells a bs) : c.1 < memSize := by
  have hfst : c.1 ∈ (storeCells a bs).map Prod.fst := List.mem_map_of_mem h
  rw [storeCells_fst, List.mem_map] at hfst
  obtain ⟨j, -, hj⟩ := hfst
  exact hj ▸ Nat.mod_lt _ (by decide)

theorem exec_keeps_inv {i : Instr} {s t : State} (hs : s.Inv) (h : exec i s = .next t) : t.Inv := by
  rcases exec_mem h with hm | ⟨bs, rfl⟩
  · exact hs.congr hm (exec_frame h).params
  · exact State.putBytes_inv hs fun c => storeCells_lt

/-- The phases around the execute phase touch neither memory nor the font. -/
theorem step_keeps_inv {s t : State} (hs : s.Inv) (h : step s = .next t) : t.Inv := by
  obtain ⟨w, u, -, hu, rfl⟩ := step_next h
  have hb : (s.beginStep w).Inv := hs.congr (State.beginStep_mem s w) (State.beginStep_params s w)
  exact (exec_keeps_inv hb hu).congr (State.tick_mem u) (State.tick_params u)

/-- Settles O18. -/
theorem stepKeepsMemoryCanonical : Obligations.StepKeepsMemoryCanonical := fun _ _ => step_keeps_inv

/-! ## Construction and the outside -/

/-- Construction lists no cell. -/
theorem construct_inv (p : Params) : (State.construct p).Inv := ⟨List.Pairwise.nil, nofun⟩

/-- Settles O19. -/
theorem constructionIsCanonical : Obligations.ConstructionIsCanonical := fun p => ⟨construct_inv p, construct_inv _⟩

/-- The cells of a ROM that fits are below 4096. -/
theorem romCells_lt {bytes : List Byte} (hfits : bytes.length ≤ romMax) {c : Nat × Byte}
    (h : c ∈ romCells progBase bytes) : c.1 < memSize := by
  have hfst : c.1 ∈ (romCells progBase bytes).map Prod.fst := List.mem_map_of_mem h
  rw [romCells_fst, List.mem_map] at hfst
  obtain ⟨k, hk, hc⟩ := hfst
  rw [List.mem_range] at hk
  simp only [romMax, progBase, memSize] at *
  omega

theorem load_keeps_inv {s : State} (hs : s.Inv) (bytes : List Byte) : (s.load bytes).1.Inv := by
  rcases le_or_gt bytes.length romMax with h | h
  · rw [load_fits h]
    exact State.putBytes_inv hs fun c => romCells_lt h
  · rwa [load_too_large h]

/-- A life whose Machine, if there is one, has memory in the canonical form. -/
def Life.Inv (l : Life) : Prop := ∀ s : State, l.machine = some s → s.Inv

theorem Life.inv_of_machine {l : Life} {s : State} (hl : l.machine = some s) (hs : s.Inv) : l.Inv := by
  intro t ht
  cases hl.symm.trans ht
  exact hs

/-- Each transition of the lifecycle keeps it: the events that write memory are construction, a load and a step. -/
theorem Life.apply_keeps_inv {l l' : Life} {e : HostEvent} (hl : l.Inv) (h : Life.apply l e = some l') : l'.Inv := by
  unfold Life.apply at h
  split at h
  · cases h
    exact Life.inv_of_machine rfl (construct_inv _)
  · next s bytes =>
    have hload := load_keeps_inv (hl s rfl) bytes
    split at h <;> next hr => cases h; rw [hr] at hload; exact Life.inv_of_machine rfl hload
  · next s k => cases h; exact Life.inv_of_machine rfl (hl s rfl)
  · next s b => cases h; exact Life.inv_of_machine rfl (hl s rfl)
  · next s =>
    split at h
    · next t ht => cases h; exact Life.inv_of_machine rfl (step_keeps_inv (hl s rfl) ht)
    · cases h; exact nofun
    · cases h
  · next s k => cases h; exact Life.inv_of_machine rfl (hl s rfl)
  · next s b => cases h; exact Life.inv_of_machine rfl (hl s rfl)
  · cases h

/-- Every life the outside can bring about has it, by induction on the events. -/
theorem Life.Reachable.inv {l : Life} (h : l.Reachable) : l.Inv := by
  induction h with
  | start => exact nofun
  | after l l' e _ he ih => exact Life.apply_keeps_inv ih he

/-- Settles O20. -/
theorem lifecycleKeepsMemoryCanonical : Obligations.LifecycleKeepsMemoryCanonical :=
  ⟨fun _ _ _ => Life.apply_keeps_inv, fun _ s hr => hr.inv s⟩

/-! ## The order of a run (R225, R229) -/

/-- Settles O60: each clause is a row of the lifecycle's table; the loads are read from their own lemmas. -/
theorem lifecycleOrder : Obligations.LifecycleOrder := by
  refine ⟨fun p => ⟨rfl, rfl⟩, fun e l h => ?_, fun s bytes hfits => ?_, fun s bytes hlong => ?_,
    fun s p => ⟨rfl, rfl⟩, fun s p bytes => ⟨rfl, rfl⟩, fun s t h => ?_, fun s f h => ?_, fun s err f e => ?_⟩
  · cases e with
    | construct p => exact ⟨p, rfl⟩
    | _ => cases h
  · refine ⟨s.putBytes (romCells progBase bytes), ?_, by rw [State.putBytes_eq]⟩
    simp only [Life.apply, load_fits hfits]
  · simp only [Life.apply, load_too_large hlong]
  · simp only [Life.apply, h]
  · simp only [Life.apply, h]
  · cases e <;> exact ⟨rfl, rfl⟩

end Sys2Proof.Machine
end

section
/-! PROOFS. The step (40_step_cycle.md R80): its phases, what it reads, its pc, its timers, and what it leaves alone. -/

namespace Sys2Proof.Machine

open Sys2Proof.Config

/-! ## The phases -/

/-- The advance of pc, as a number. -/
theorem toNat_add_two (w : Word) : (w + 2).toNat = (w.toNat + 2) % 65536 := BitVec.toNat_add w 2

theorem add_two_eq_ofNat (w : Word) : w + 2 = BitVec.ofNat 16 (w.toNat + 2) := by
  apply BitVec.eq_of_toNat_eq
  rw [toNat_add_two, BitVec.toNat_ofNat]

/-- Phases 1 to 3 as one record update. -/
theorem beginStep_eq (s : State) (w : Word) : s.beginStep w = { s with
    opcode := w, pc := BitVec.ofNat 16 (s.pc.toNat + 2)
    key := s.keyIn.headD s.key, keyIn := s.keyIn.tail, event := none } := by
  rw [State.beginStep, add_two_eq_ofNat]
  unfold State.sampleKeys
  split
  · next hk => rw [hk]; rfl
  · next hk => rw [hk]; rfl

theorem step_of_fetch_error {s : State} {f : Fault} (h : s.fetch = .error f) : step s = .fault f := by
  simp only [step, h]

theorem step_of_exec_fault {s : State} {w : Word} {f : Fault} (hw : s.fetch = .ok w)
    (hf : exec (decodeWord w) (s.beginStep w) = .fault f) : step s = .fault f := by
  simp only [step, hw, hf]

/-- After a step `opcode` holds the word the step fetched (R83). -/
theorem fetch_of_step_next {s t : State} (h : step s = .next t) : s.fetch = .ok t.opcode := by
  obtain ⟨w, u, hw, hu, rfl⟩ := step_next h
  rw [hw, State.tick_opcode, exec_keeps_opcode hu, State.beginStep_opcode]

/-- What a step writes: the execute phase of the word it latched, within that operation's frame, then the tick. -/
theorem step_next_frame {s t : State} (h : step s = .next t) :
    ∃ u : State, exec (decodeWord t.opcode) (s.beginStep t.opcode) = .next u ∧ t = u.tick ∧
      Frame (writesOf (s.beginStep t.opcode) (decodeWord t.opcode)) (s.beginStep t.opcode) u := by
  obtain ⟨u, hu, ht⟩ := step_next_of_opcode h rfl
  exact ⟨u, hu, ht, exec_frame hu⟩

theorem not_reaches_fetch {s : State} (h : ¬ s.reaches s.pc.toNat 2) :
    s.fetch = .error (.addressOutOfRange (max s.pc.toNat memSize) .fetch) := by
  rcases fetch_cases s with ⟨hr, -⟩ | ⟨-, -, e⟩
  · exact absurd hr h
  · exact e

/-- Settles O6. -/
theorem stepRunsFetchedInstruction : Obligations.StepRunsFetchedInstruction := by
  intro s
  refine ⟨fun b i hi lo hr hhi hlo hdec hb => ?_, fun hr => ?_⟩
  · have hw : s.fetch = .ok (wordOfBytes hi lo) := by rw [fetch_ok hr, hhi, hlo]
    obtain rfl : decodeWord (wordOfBytes hi lo) = i := by
      rw [decode] at hdec
      cases hdec
      rfl
    obtain rfl : s.beginStep (wordOfBytes hi lo) = b := (beginStep_eq s _).trans hb.symm
    simp only [step, hw]
    cases exec (decodeWord (wordOfBytes hi lo)) (s.beginStep (wordOfBytes hi lo)) <;> rfl
  · exact ⟨_, not_reaches_fetch hr, step_of_fetch_error (not_reaches_fetch hr)⟩

/-- Settles O7. -/
theorem fetchBeyondMemoryFaults : Obligations.FetchBeyondMemoryFaults := by
  intro s ho hpc
  have hr : ¬ s.reaches s.pc.toNat 2 := State.not_reaches ho (by decide) (by rw [memSize]; omega)
  exact step_of_fetch_error (not_reaches_fetch hr)

/-- Two bytes stored at pc and pc + 1 are fetched as the word they form. -/
theorem fetch_stored {s : State} {hi lo : Byte} {w : Word} (hpc : s.pc.toNat + 1 < 4096)
    (hw : w.toNat = hi.toNat * 256 + lo.toNat) :
    ((s.putByte s.pc.toNat hi).putByte (s.pc.toNat + 1) lo).fetch = .ok w := by
  have hword : wordOfBytes hi lo = w := BitVec.eq_of_toNat_eq ((toNat_wordOfBytes hi lo).trans hw.symm)
  have hr : ((s.putByte s.pc.toNat hi).putByte (s.pc.toNat + 1) lo).reaches s.pc.toNat 2 := .inr (.inr hpc)
  have h0 : s.pc.toNat % memSize = s.pc.toNat := Nat.mod_eq_of_lt (Nat.lt_of_succ_lt hpc)
  have h1 : (s.pc.toNat + 1) % memSize = s.pc.toNat + 1 := Nat.mod_eq_of_lt hpc
  refine (fetch_ok hr).trans ?_
  simp [h0, h1, State.byteAt_putByte, hword]

/-- Settles O8. -/
theorem storedBytesAreFetched : Obligations.StoredBytesAreFetched := by
  rintro s p hi lo w hpc hw rfl
  have hf := fetch_stored hpc hw
  refine ⟨fun u hu => step_of_exec hf hu, fun e he => step_of_exec_fault hf he, fun t ht => ?_⟩
  cases (fetch_of_step_next ht).symm.trans hf
  rfl

theorem step_keeps_params {s t : State} (h : step s = .next t) : t.params = s.params := by
  obtain ⟨u, -, ht, hframe⟩ := step_next_frame h
  rw [ht, State.tick_params, hframe.params, State.beginStep_params]

/-- The keypad of a step is its snapshot, which no phase after the sampling changes (R90). -/
theorem step_next_key {s t : State} (h : step s = .next t) : t.key = s.keyIn.headD s.key := by
  obtain ⟨u, -, ht, hframe⟩ := step_next_frame h
  rw [ht, State.tick_key, hframe.key, State.beginStep_key]

/-- Settles O17. -/
theorem stepTakesOneKeypadSnapshot : Obligations.StepTakesOneKeypadSnapshot := by
  intro s t h
  obtain ⟨u, -, ht, hframe⟩ := step_next_frame h
  refine ⟨step_next_key h, ?_, step_keeps_params h, ?_⟩
  · rw [ht, State.tick_keyIn, hframe.keyIn, State.beginStep_keyIn]
  · rcases fetch_cases s with ⟨-, e⟩ | ⟨-, -, e⟩
    · rw [Except.ok.inj ((fetch_of_step_next h).symm.trans e)]
      exact toNat_wordOfBytes _ _
    · cases (fetch_of_step_next h).symm.trans e

/-- Settles O23: memory by the earlier lemma, the screen by the operation's frame. -/
theorem memoryAndScreenWriters : Obligations.MemoryAndScreenWriters := by
  intro s t h
  refine ⟨fun ⟨a, ha⟩ => step_alters_byte h ha, fun hpix => ?_⟩
  obtain ⟨u, -, ht, hframe⟩ := step_next_frame h
  have hkept : u.pix ≠ (s.beginStep t.opcode).pix := by
    rwa [ht, State.tick_pix, ← State.beginStep_pix s t.opcode] at hpix
  cases hi : decodeWord t.opcode with
  | cls => exact .inl rfl
  | drw x y n => exact .inr ⟨x, y, n, rfl⟩
  | _ => rw [hi] at hframe; exact absurd (hframe.pix rfl) hkept

/-! ## The timers (R86, R176) and the tone request (R87) -/

/-- DT as the execute phase of an operation leaves it. -/
def State.dtAfter (s : State) : Instr → Byte
  | .ldDTVx x => s.V[x]
  | _ => s.DT

/-- ST as the execute phase of an operation leaves it. -/
def State.stAfter (s : State) : Instr → Byte
  | .ldSTVx x => s.V[x]
  | _ => s.ST

theorem exec_DT {i : Instr} {s t : State} (h : exec i s = .next t) : t.DT = s.dtAfter i := by
  have hframe := exec_frame h
  cases i with
  | ldDTVx x => cases h; rfl
  | _ => exact hframe.DT rfl

theorem exec_ST {i : Instr} {s t : State} (h : exec i s = .next t) : t.ST = s.stAfter i := by
  have hframe := exec_frame h
  cases i with
  | ldSTVx x => cases h; rfl
  | _ => exact hframe.ST rfl

@[simp] theorem beginStep_dtAfter (s : State) (w : Word) (i : Instr) : (s.beginStep w).dtAfter i = s.dtAfter i := by
  cases i <;> simp [State.dtAfter]

@[simp] theorem beginStep_stAfter (s : State) (w : Word) (i : Instr) : (s.beginStep w).stAfter i = s.stAfter i := by
  cases i <;> simp [State.stAfter]

theorem step_next_DT {s t : State} (h : step s = .next t) : t.DT = countDown (s.dtAfter (decodeWord t.opcode)) := by
  obtain ⟨u, hu, ht, -⟩ := step_next_frame h
  have hDT : t.DT = countDown u.DT := by rw [ht, State.tick_DT]
  rw [hDT, exec_DT hu, beginStep_dtAfter]

/-- The tick finds the ST that the operation left, counts it down and makes the tone request of it. -/
theorem step_next_ST {s t : State} (h : step s = .next t) : t.ST = countDown (s.stAfter (decodeWord t.opcode)) ∧
    ∃ free : Bool, t.toneReq = toneOf s.params.tone free (s.stAfter (decodeWord t.opcode)) := by
  obtain ⟨u, hu, ht, hframe⟩ := step_next_frame h
  have hST : u.ST = s.stAfter (decodeWord t.opcode) := by rw [exec_ST hu, beginStep_stAfter]
  refine ⟨by rw [← hST, ht, State.tick_ST], freeTone u.fresh, ?_⟩
  rw [← hST, ht, State.tick_toneReq, hframe.params, State.beginStep_params]

/-- Settles O10. -/
theorem everyStepTicksTheTimers : Obligations.EveryStepTicksTheTimers := by
  intro s t h
  rw [step_next_DT h, (step_next_ST h).1, toNat_countDown, toNat_countDown]
  cases decodeWord t.opcode <;> exact ⟨rfl, rfl⟩

/-- Settles O11: the request is `toneOf` at the value of ST the tick finds. -/
theorem toneRequestOfTheStep : Obligations.ToneRequestOfTheStep := by
  intro s t n h hn
  obtain ⟨-, free, htone⟩ := step_next_ST h
  have hval : (s.stAfter (decodeWord t.opcode)).toNat = n := by
    rw [hn]
    cases decodeWord t.opcode <;> rfl
  rw [htone]
  generalize s.stAfter (decodeWord t.opcode) = st at hval
  have h0 : st = 0 ↔ n = 0 := by rw [← hval, ← BitVec.toNat_inj]; rfl
  have h1 : st = 1 ↔ n = 1 := by rw [← hval, ← BitVec.toNat_inj]; rfl
  unfold toneOf
  refine ⟨fun e => ?_, fun e => ?_, fun hle hp => ?_, fun hle hp => ?_⟩
  · rw [if_pos (h0.2 e)]
  · rw [if_neg (by rw [h0]; omega), if_pos (h1.2 e)]
  · rw [if_neg (by rw [h0]; omega), if_neg (by rw [h1]; omega), hp]
  · rw [if_neg (by rw [h0]; omega), if_neg (by rw [h1]; omega), hp]

/-- Settles O12, by induction on the number of steps: the first step takes DT one down, the others by hypothesis. -/
theorem delayTimerCountsSteps : Obligations.DelayTimerCountsSteps := by
  intro k
  induction k with
  | zero =>
    intro s t h _
    cases h
    rfl
  | succ k ih =>
    intro s t h hno
    obtain ⟨u, hu, hrun⟩ := run_next_inv core h
    have hfirst : u.DT.toNat = s.DT.toNat - 1 := by
      rw [step_next_DT hu, toNat_countDown]
      cases hi : decodeWord u.opcode with
      | ldDTVx x => exact absurd hi (hno 0 s u x (Nat.succ_pos k) rfl hu)
      | _ => rfl
    have hrest := ih u t hrun fun j v v' x hj hv hv' =>
      hno (j + 1) v v' x (Nat.succ_lt_succ hj) ((run_of_next core hu).trans hv) hv'
    omega

/-! ## Faults (R190, R196) -/

/-- The two faults of R190, each only under its policy and only for a value out of range. -/
def Fault.Listed (p : Params) (f : Fault) : Prop :=
  (∃ (a : Nat) (k : AccessKind), f = .addressOutOfRange a k ∧ 4096 ≤ a ∧ p.oob = .fault) ∨
  (∃ v : Byte, f = .keyIndexOutOfRange v ∧ 15 < v.toNat ∧ p.keyIndex = .fault)

theorem listed_address {p : Params} (h : p.oob = .fault) (a : Nat) (k : AccessKind) :
    Fault.Listed p (.addressOutOfRange (max a memSize) k) :=
  .inl ⟨_, k, rfl, le_max_right a memSize, h⟩

/-- What an execute phase can answer: a next state, or a listed fault. -/
def Answers (p : Params) (o : Host.Outcome State Fault Refusal) : Prop :=
  (∃ t : State, o = .next t) ∨ ∃ f : Fault, o = .fault f ∧ Fault.Listed p f

theorem outcome_storeBytes_answers (s : State) (a : Nat) (bs : List Byte) :
    Answers s.params (outcome (s.storeBytes a bs)) := by
  rcases storeBytes_cases s a bs with ⟨-, e⟩ | ⟨ho, -, -, e⟩
  · exact .inl ⟨_, congrArg outcome e⟩
  · exact .inr ⟨_, congrArg outcome e, listed_address ho a .write⟩

theorem keySkip_answers (f : Bool → Bool) (x : Reg) (s : State) : Answers s.params (keySkip f x s) := by
  cases hk : keyIndex s.params.keyIndex s.V[x] with
  | ok k => exact .inl ⟨_, keySkip_of_ok hk⟩
  | error e => exact .inr ⟨e, keySkip_of_error hk, .inr ⟨_, keyIndex_error hk⟩⟩

theorem exec_answers (i : Instr) (s : State) : Answers s.params (exec i s) := by
  cases i with
  | ldB | storeRegs => exact outcome_storeBytes_answers s _ _
  | drw x y n =>
    rcases execDrw_cases x y n s with ⟨-, e⟩ | ⟨ho, -, -, e⟩
    · exact .inl ⟨_, e⟩
    · exact .inr ⟨_, e, listed_address ho _ _⟩
  | loadRegs x =>
    rcases exec_loadRegs_cases x s with ⟨-, e⟩ | ⟨ho, -, e⟩
    · exact .inl ⟨_, e⟩
    · exact .inr ⟨_, e, listed_address ho _ _⟩
  | ldVxK x =>
    by_cases hd : ∃ k : Key, s.key[k] = true
    · obtain ⟨k, -, -, e⟩ := exec_ldVxK_of_down x hd
      exact .inl ⟨_, e⟩
    · exact .inl ⟨_, exec_ldVxK_of_idle x (by simpa using hd)⟩
  | skp x => exact keySkip_answers id x s
  | sknp x => exact keySkip_answers not x s
  | _ => exact .inl ⟨_, rfl⟩

theorem step_answers (s : State) : Answers s.params (step s) := by
  rcases fetch_cases s with ⟨-, hw⟩ | ⟨ho, -, e⟩
  · rcases exec_answers _ (s.beginStep _) with ⟨t, ht⟩ | ⟨f, hf, hl⟩
    · exact .inl ⟨_, step_of_exec hw ht⟩
    · exact .inr ⟨f, step_of_exec_fault hw hf, State.beginStep_params s _ ▸ hl⟩
  · exact .inr ⟨_, step_of_fetch_error e, listed_address ho _ _⟩

/-- Settles O14. -/
theorem onlyTwoFaultsAndNoRefusal : Obligations.OnlyTwoFaultsAndNoRefusal := by
  intro s
  rcases step_answers s with ⟨t, e⟩ | ⟨f, e, hl⟩
  · rw [e]
    exact ⟨nofun, nofun⟩
  · rw [e]
    refine ⟨nofun, fun g hg => ?_⟩
    cases hg
    exact hl

/-- Under the total policies no fault is listed, so a step completes; it keeps the policies. -/
theorem step_completes {s : State} (ho : s.params.oob = .wrap12) (hk : s.params.keyIndex ≠ .fault) :
    ∃ t : State, step s = .next t ∧ t.params = s.params := by
  rcases step_answers s with ⟨t, e⟩ | ⟨f, -, ⟨-, -, -, -, hf⟩ | ⟨-, -, -, hf⟩⟩
  · exact ⟨t, e, step_keeps_params e⟩
  · rw [ho] at hf
    cases hf
  · exact absurd hf hk

/-- Settles O13, by induction on the number of steps. -/
theorem everyRunIsLiveUnderTotalPolicies : Obligations.EveryRunIsLiveUnderTotalPolicies := by
  intro k
  induction k with
  | zero => exact fun s _ _ => ⟨s, rfl⟩
  | succ k ih =>
    intro s ho hk
    obtain ⟨u, hu, hp⟩ := step_completes ho hk
    obtain ⟨t, ht⟩ := ih u (hp ▸ ho) (hp ▸ hk)
    exact ⟨t, (run_of_next core hu).trans ht⟩

end Sys2Proof.Machine
end

section
/-! PROOFS. Control flow (41_control_flow.md): the return stack, the skips and jumps, and the pc after every step. -/

namespace Sys2Proof.Machine

open Sys2Proof.Config

/-! ## The return stack (R17, R18) -/

theorem callTo_of_lt {s : State} (h : s.sp.val < 16) (target : Word) :
    s.callTo target = { s with stack := s.stack.set s.sp.val s.pc, sp := ⟨s.sp.val + 1, by omega⟩, pc := target } := by
  rw [State.callTo, dif_pos h]

theorem callTo_of_full {s : State} (h : ¬ s.sp.val < 16) (target : Word) :
    s.callTo target = s.report .stackOverflow := by
  rw [State.callTo, dif_neg h]

theorem popReturn_of_pos {s : State} (h : 0 < s.sp.val) :
    s.popReturn = { s with sp := ⟨s.sp.val - 1, by omega⟩, pc := s.stack[s.sp.val - 1] } := by
  rw [State.popReturn, dif_pos h]

theorem popReturn_of_empty {s : State} (h : ¬ 0 < s.sp.val) : s.popReturn = s.report .stackUnderflow := by
  rw [State.popReturn, dif_neg h]

@[simp] theorem toNat_callTo_sp (s : State) (target : Word) :
    (s.callTo target).sp.val = if s.sp.val < 16 then s.sp.val + 1 else s.sp.val := by
  split
  · next h => rw [callTo_of_lt h]
  · next h => rw [callTo_of_full h, State.report_sp]

/-- The entry at the old sp takes the pc; at sp = 16 there is none. -/
theorem callTo_stack_get (s : State) (target : Word) (k : Fin 16) :
    (s.callTo target).stack[k] = if k.val = s.sp.val then s.pc else s.stack[k] := by
  by_cases h : s.sp.val < 16
  · rw [callTo_of_lt h]
    simp only [Fin.getElem_fin, Vector.getElem_set, eq_comm]
  · rw [callTo_of_full h, State.report_stack, if_neg (by omega)]

@[simp] theorem callTo_pc (s : State) (target : Word) :
    (s.callTo target).pc = if s.sp.val < 16 then target else s.pc := by
  split
  · next h => rw [callTo_of_lt h]
  · next h => rw [callTo_of_full h, State.report_pc]

@[simp] theorem toNat_popReturn_sp (s : State) : s.popReturn.sp.val = s.sp.val - 1 := by
  by_cases h : 0 < s.sp.val
  · rw [popReturn_of_pos h]
  · rw [popReturn_of_empty h, State.report_sp]
    omega

@[simp] theorem popReturn_pc (s : State) :
    s.popReturn.pc = if h : 0 < s.sp.val then s.stack[s.sp.val - 1] else s.pc := by
  split
  · next h => rw [popReturn_of_pos h]
  · next h => rw [popReturn_of_empty h, State.report_pc]

/-- Settles O25. -/
theorem retReturns : Obligations.RetReturns := by
  intro s
  refine ⟨by decide, s.popReturn, exec_ret s, State.popReturn_stack s, fun h => ?_, fun h => ?_, popReturn_frame s⟩
  · rw [popReturn_of_pos h]
    exact ⟨rfl, rfl, rfl⟩
  · rw [popReturn_of_empty (by omega)]
    exact ⟨rfl, rfl, rfl⟩

/-- Settles O27. -/
theorem callPushesAndJumps : Obligations.CallPushesAndJumps := by
  intro nnn s
  refine ⟨decodeWord_encodeWord (i := .call nnn) rfl, s.callTo (zext nnn), exec_call nnn s, fun h => ?_, fun h => ?_,
    callTo_frame s _⟩
  · have hget := callTo_stack_get s (zext nnn)
    refine ⟨?_, ?_, ?_, ?_, fun k hk => ?_⟩
    · exact (hget ⟨s.sp.val, h⟩).trans (if_pos rfl)
    · rw [toNat_callTo_sp, if_pos h]
    · rw [callTo_pc, if_pos h, toNat_zext]
    · rw [callTo_of_lt h]
    · rw [hget, if_neg hk]
  · rw [callTo_of_full (by omega)]
    exact ⟨rfl, rfl, rfl, rfl⟩

/-- Settles O24: the two stack operations by their updates, every other one by its frame. -/
theorem stackMovesByCallAndRet : Obligations.StackMovesByCallAndRet := by
  intro s t h
  obtain ⟨u, hu, ht, hframe⟩ := step_next_frame h
  have hstack : t.stack = u.stack := by rw [ht, State.tick_stack]
  have hsp : t.sp = u.sp := by rw [ht, State.tick_sp]
  rw [hsp, hstack]
  cases hi : decodeWord t.opcode with
  | call nnn =>
    rw [hi] at hu
    cases hu
    refine ⟨?_, fun k => ?_⟩
    · rw [toNat_callTo_sp, State.beginStep_sp]
    · rw [callTo_stack_get, State.beginStep_sp, State.beginStep_pc, State.beginStep_stack, add_two_eq_ofNat]
  | ret =>
    rw [hi] at hu
    cases hu
    exact ⟨by rw [toNat_popReturn_sp, State.beginStep_sp],
      fun k => by rw [State.popReturn_stack, State.beginStep_stack]⟩
  | _ =>
    rw [hi] at hframe
    exact ⟨by rw [hframe.sp rfl, State.beginStep_sp], fun k => by rw [hframe.stack rfl, State.beginStep_stack]⟩

/-! ## CALL, then RET (S5) -/

/-- The step that executes a CALL with room on the stack. -/
theorem step_call {s : State} {nnn : Addr12} (hsp : s.sp.val < 16) (hA : s.reaches s.pc.toNat 2)
    (hcall : decodeWord (wordOfBytes (s.byteAt (s.pc.toNat % 4096)) (s.byteAt ((s.pc.toNat + 1) % 4096))) = .call nnn) :
    ∃ u : State, step s = .next u ∧ u.pc = zext nnn ∧ u.sp.val = s.sp.val + 1 ∧ u.stack[s.sp.val] = s.pc + 2 ∧
      u.params = s.params ∧ ∀ a : Nat, u.byteAt a = s.byteAt a := by
  generalize hw : wordOfBytes (s.byteAt (s.pc.toNat % 4096)) (s.byteAt ((s.pc.toNat + 1) % 4096)) = w at hcall
  have hexec : exec (decodeWord w) (s.beginStep w) = .next ((s.beginStep w).callTo (zext nnn)) := by
    rw [hcall, exec_call]
  have hpushed := callTo_stack_get (s.beginStep w) (zext nnn) ⟨s.sp.val, hsp⟩
  refine ⟨_, step_of_exec (hw ▸ fetch_ok hA) hexec, ?_, ?_, ?_, ?_, fun a => ?_⟩
  · rw [State.tick_pc, callTo_pc, State.beginStep_sp, if_pos hsp]
  · rw [State.tick_sp, toNat_callTo_sp, State.beginStep_sp, if_pos hsp]
  · rwa [State.beginStep_sp, if_pos rfl, State.beginStep_pc] at hpushed
  · rw [State.tick_params, State.callTo_params, State.beginStep_params]
  · rw [byteAt_tick, State.byteAt_congr (State.callTo_mem _ _) (State.callTo_params _ _), byteAt_beginStep]

/-- The step that executes a RET with n + 1 return addresses held. -/
theorem step_ret {s : State} {n : Nat} (hsp : s.sp.val = n + 1) (hA : s.reaches s.pc.toNat 2)
    (hret : decodeWord (wordOfBytes (s.byteAt (s.pc.toNat % 4096)) (s.byteAt ((s.pc.toNat + 1) % 4096))) = .ret) :
    ∃ t : State, step s = .next t ∧ t.pc = s.stack[n] ∧ t.sp.val = n := by
  generalize hw : wordOfBytes (s.byteAt (s.pc.toNat % 4096)) (s.byteAt ((s.pc.toNat + 1) % 4096)) = w at hret
  have hexec : exec (decodeWord w) (s.beginStep w) = .next (s.beginStep w).popReturn := by rw [hret, exec_ret]
  refine ⟨_, step_of_exec (hw ▸ fetch_ok hA) hexec, ?_, ?_⟩
  · simp [popReturn_pc, hsp]
  · rw [State.tick_sp, toNat_popReturn_sp, State.beginStep_sp, hsp, Nat.add_sub_cancel]

/-- Settles O28: the CALL's step leaves memory as it is, and A + 2 in the entry that the RET's step reads. -/
theorem callThenRetReturns : Obligations.CallThenRetReturns := by
  intro s nnn hsp hA hN hcall hret
  obtain ⟨u, hu, hpc, husp, hentry, hparams, hbytes⟩ := step_call hsp hA hcall
  have hpc' : u.pc.toNat = nnn.toNat := by rw [hpc, toNat_zext]
  have hreach : u.reaches u.pc.toNat 2 := by rwa [State.reaches, hparams, hpc']
  have hret' : decodeWord (wordOfBytes (u.byteAt (u.pc.toNat % 4096)) (u.byteAt ((u.pc.toNat + 1) % 4096))) = .ret := by
    rw [hbytes, hbytes, hpc', Nat.mod_eq_of_lt nnn.isLt, hret]
  obtain ⟨t, ht, htpc, htsp⟩ := step_ret husp hreach hret'
  refine ⟨u, t, hu, ht, hpc', ?_, Fin.ext htsp⟩
  rw [htpc, hentry, toNat_add_two]

/-! ## Jumps and skips -/

theorem exec_seReg (x y : Reg) (n : Nibble) (s : State) :
    exec (.seReg x y n) s = .next (s.skipIf (s.V[x] = s.V[y])) := rfl

theorem exec_sneReg (x y : Reg) (n : Nibble) (s : State) :
    exec (.sneReg x y n) s = .next (s.skipIf (s.V[x] ≠ s.V[y])) := rfl

/-- Settles O30: both are `State.skipIf`, whatever n is. -/
theorem registerSkips : Obligations.RegisterSkips := by
  intro x y n s
  refine ⟨⟨decodeWord_encodeWord (i := .seReg x y n) rfl, _, exec_seReg x y n s, skipIf_frame s _, ?_⟩,
    ⟨decodeWord_encodeWord (i := .sneReg x y n) rfl, _, exec_sneReg x y n s, skipIf_frame s _, ?_⟩⟩
  · simp only [toNat_skipIf_pc, decide_eq_true_eq, BitVec.toNat_inj]
  · simp only [toNat_skipIf_pc, decide_eq_true_eq, BitVec.toNat_inj, ite_not]

theorem exec_jpV0 (nnn : Addr12) (s : State) : exec (.jpV0 nnn) s = .next (s.setPc (offsetTarget nnn s.V[0])) := rfl

/-- The sum of a 12-bit address and a byte is below 65536, so it is not reduced. -/
theorem toNat_offsetTarget (nnn : Addr12) (v : Byte) : (offsetTarget nnn v).toNat = nnn.toNat + v.toNat := by
  have := nnn.isLt
  have := v.isLt
  rw [offsetTarget, BitVec.toNat_ofNat]
  omega

/-- Settles O31. -/
theorem jpV0Jumps : Obligations.JpV0Jumps := by
  intro nnn s
  exact ⟨decodeWord_encodeWord (i := .jpV0 nnn) rfl, _, exec_jpV0 nnn s, toNat_offsetTarget nnn s.V[0], setPc_frame s _⟩

/-! ## The pc after every step -/

/-- The pc after a step that skips or not. -/
theorem toNat_beginStep_skipIf_pc (s : State) (w : Word) (c : Bool) :
    ((s.beginStep w).skipIf c).pc.toNat = if c then (s.pc.toNat + 4) % 65536 else (s.pc.toNat + 2) % 65536 := by
  rw [toNat_skipIf_pc, State.beginStep_pc, toNat_add_two, Nat.mod_add_mod]

/-- A key number's slot is down: the model's KeyIndex and KeyDown (R177) as a search over the slots. -/
theorem any_key_eq_keyDown {p : KeyIndexPolicy} {v : Byte} {o : Option Key} (h : keyIndex p v = .ok o) (key : Keypad) :
    (List.finRange 16).any (fun k => keyIndex p v = .ok (some k) && key[k]) = keyDown key o := by
  rw [h]
  cases o with
  | none => exact List.any_eq_false.2 fun k _ => by simp
  | some k =>
    rw [Bool.eq_iff_iff, List.any_eq_true]
    refine ⟨fun ⟨j, _, hj⟩ => ?_, fun hk => ⟨k, List.mem_finRange k, by simpa [keyDown] using hk⟩⟩
    rw [Bool.and_eq_true, decide_eq_true_eq] at hj
    cases hj.1
    exact hj.2

/-- The pc after a step that waits for a key, or has one. -/
theorem ldVxK_pc {x : Reg} {s u : State} {w : Word} (hu : exec (.ldVxK x) (s.beginStep w) = .next u) :
    u.pc.toNat =
      if (List.finRange 16).any (fun k => (s.beginStep w).key[k]) then (s.pc.toNat + 2) % 65536 else s.pc.toNat := by
  rcases exec_ldVxK_next hu with ⟨hidle, rfl⟩ | ⟨k, hk, rfl⟩
  · have hany : (List.finRange 16).any (fun k => (s.beginStep w).key[k]) = false :=
      List.any_eq_false.2 fun k _ => by simp only [hidle k, Bool.false_eq_true, not_false_eq_true]
    rw [State.setPc_pc, State.beginStep_pc, BitVec.add_sub_cancel, hany, if_neg Bool.false_ne_true]
  · have hany : (List.finRange 16).any (fun k => (s.beginStep w).key[k]) = true :=
      List.any_eq_true.2 ⟨k, List.mem_finRange k, hk⟩
    rw [State.setV_pc, State.beginStep_pc, toNat_add_two, if_pos hany]

/-- Settles O9: each operation that R85 names by its update of pc, every other one by its frame. -/
theorem pcAfterEachOperation : Obligations.PcAfterEachOperation := by
  intro s t h skip down
  obtain ⟨u, hu, ht, hframe⟩ := step_next_frame h
  have hadv : (s.beginStep t.opcode).pc.toNat = (s.pc.toNat + 2) % 65536 := by
    rw [State.beginStep_pc, toNat_add_two]
  have hkey : t.key = (s.beginStep t.opcode).key := by rw [step_next_key h, State.beginStep_key]
  have hdown {x : Reg} {o : Option Key}
      (ho : keyIndex (s.beginStep t.opcode).params.keyIndex (s.beginStep t.opcode).V[x] = .ok o) :
      down s.V[x] = keyDown (s.beginStep t.opcode).key o := by
    rw [State.beginStep_params, State.beginStep_V] at ho
    rw [← hkey]
    exact any_key_eq_keyDown ho t.key
  rw [show t.pc = u.pc by rw [ht, State.tick_pc]]
  cases hi : decodeWord t.opcode <;> rw [hi] at hu hframe
  case jp nnn => cases hu; exact toNat_zext nnn
  case call nnn =>
    cases hu
    simp only [callTo_pc, State.beginStep_sp]
    split
    · exact toNat_zext nnn
    · exact hadv
  case ret =>
    cases hu
    simp only [popReturn_pc, State.beginStep_sp, State.beginStep_stack]
    split
    · rfl
    · exact hadv
  case jpV0 nnn =>
    rw [exec_jpV0] at hu
    cases hu
    rw [State.setPc_pc, offsetTarget, BitVec.toNat_ofNat, State.beginStep_V]
  case seImm x kk | sneImm x kk | seReg x y n | sneReg x y n =>
    simp only [exec_seImm, exec_sneImm, exec_seReg, exec_sneReg] at hu
    cases hu
    simp only [toNat_beginStep_skipIf_pc, State.beginStep_V, decide_eq_true_eq, skip]
  case skp x =>
    obtain ⟨o, ho, rfl⟩ := keySkip_next (f := id) hu
    rw [toNat_beginStep_skipIf_pc, ← hdown ho]
    rfl
  case sknp x =>
    obtain ⟨o, ho, rfl⟩ := keySkip_next (f := not) hu
    rw [toNat_beginStep_skipIf_pc, ← hdown ho]
    simp only [Bool.not_eq_true', skip]
  case ldVxK x => rw [hkey]; exact ldVxK_pc hu
  all_goals exact (congrArg BitVec.toNat (hframe.pc rfl)).trans hadv

end Sys2Proof.Machine
end

section
/-! PROOFS. What the execute phase does not read: the keypad (R90), but for three operations, and the outputs (R29). -/

namespace Sys2Proof.Machine

open Sys2Proof.Config

/-- The state with another keypad and another tone request. -/
def State.withKeyTone (k : Keypad) (tone : Bool) (s : State) : State := { s with key := k, toneReq := tone }

/-- An outcome with its next state changed. -/
def mapNext (f : State → State) : Host.Outcome State Fault Refusal → Host.Outcome State Fault Refusal
  | .next t => .next (f t)
  | .fault e => .fault e
  | .refused r => .refused r

theorem skipIf_withKeyTone (s : State) (c : Bool) (k : Keypad) (tone : Bool) :
    (s.withKeyTone k tone).skipIf c = (s.skipIf c).withKeyTone k tone := by
  cases c <;> rfl

theorem popReturn_withKeyTone (s : State) (k : Keypad) (tone : Bool) :
    (s.withKeyTone k tone).popReturn = s.popReturn.withKeyTone k tone := by
  by_cases h : 0 < s.sp.val
  · rw [popReturn_of_pos h, popReturn_of_pos (s := s.withKeyTone k tone) h]; rfl
  · rw [popReturn_of_empty h, popReturn_of_empty (s := s.withKeyTone k tone) h]; rfl

theorem callTo_withKeyTone (s : State) (target : Word) (k : Keypad) (tone : Bool) :
    (s.withKeyTone k tone).callTo target = (s.callTo target).withKeyTone k tone := by
  by_cases h : s.sp.val < 16
  · rw [callTo_of_lt h, callTo_of_lt (s := s.withKeyTone k tone) h]; rfl
  · rw [callTo_of_full h, callTo_of_full (s := s.withKeyTone k tone) h]; rfl

theorem putBytes_withKeyTone (s : State) (cs : List (Nat × Byte)) (k : Keypad) (tone : Bool) :
    (s.withKeyTone k tone).putBytes cs = (s.putBytes cs).withKeyTone k tone := by
  induction cs generalizing s with
  | nil => rfl
  | cons c cs ih => exact ih (s.putByte c.1 c.2)

theorem storeBytes_withKeyTone (s : State) (a : Nat) (bs : List Byte) (k : Keypad) (tone : Bool) :
    outcome ((s.withKeyTone k tone).storeBytes a bs) =
      mapNext (State.withKeyTone k tone) (outcome (s.storeBytes a bs)) := by
  have hsame : (s.withKeyTone k tone).storeBytes a bs =
      match effAddrs s.params.oob .write a bs.length with
      | .error f => .error f
      | .ok es => .ok ((s.withKeyTone k tone).putBytes (es.zip bs)) := rfl
  rw [hsame, State.storeBytes]
  cases effAddrs s.params.oob .write a bs.length with
  | error f => rfl
  | ok es => exact congrArg Host.Outcome.next (putBytes_withKeyTone s _ k tone)

theorem drw_withKeyTone (x y : Reg) (n : Nibble) (s : State) (k : Keypad) (tone : Bool) :
    exec (.drw x y n) (s.withKeyTone k tone) = mapNext (State.withKeyTone k tone) (exec (.drw x y n) s) := by
  cases hl : s.loadBytes .read s.I.toNat n.val with
  | error | ok =>
    have hl' := (show (s.withKeyTone k tone).loadBytes .read (s.withKeyTone k tone).I.toNat n.val = _ from hl)
    simp only [exec, execDrw, hl, hl']
    rfl

theorem loadRegs_withKeyTone (x : Reg) (s : State) (k : Keypad) (tone : Bool) :
    exec (.loadRegs x) (s.withKeyTone k tone) = mapNext (State.withKeyTone k tone) (exec (.loadRegs x) s) := by
  cases hl : s.loadBytes .read s.I.toNat (x.val + 1) with
  | error | ok =>
    have hl' := (show (s.withKeyTone k tone).loadBytes .read (s.withKeyTone k tone).I.toNat (x.val + 1) = _ from hl)
    simp only [exec, execLoadRegs, hl, hl']
    rfl

/-- The three operations that read the keypad do not read the tone request. -/
theorem keySkip_withTone (f : Bool → Bool) (x : Reg) (s : State) (tone : Bool) :
    keySkip f x (s.withKeyTone s.key tone) = mapNext (State.withKeyTone s.key tone) (keySkip f x s) := by
  cases hk : keyIndex s.params.keyIndex s.V[x] with
  | error e => rw [keySkip_of_error hk, keySkip_of_error (s := s.withKeyTone s.key tone) hk]; rfl
  | ok o =>
    rw [keySkip_of_ok hk, keySkip_of_ok (s := s.withKeyTone s.key tone) hk]
    exact congrArg Host.Outcome.next (skipIf_withKeyTone s _ _ tone)

theorem ldVxK_withTone (x : Reg) (s : State) (tone : Bool) :
    exec (.ldVxK x) (s.withKeyTone s.key tone) = mapNext (State.withKeyTone s.key tone) (exec (.ldVxK x) s) := by
  cases hp : pickKey s.params.keyPick (freeKeyPick s.fresh) (keysDown s.key) with
  | none | some =>
    have hp' := (show pickKey (s.withKeyTone s.key tone).params.keyPick (freeKeyPick (s.withKeyTone s.key tone).fresh)
      (keysDown (s.withKeyTone s.key tone).key) = _ from hp)
    simp only [exec, execLdVxK, hp, hp']
    rfl

/-- No operation reads the tone request, and only `Ex9E`, `ExA1` and `Fx0A` read the keypad. -/
theorem exec_withKeyTone {i : Instr} {s : State} {k : Keypad} (tone : Bool)
    (h : (∀ x : Reg, i ≠ .skp x ∧ i ≠ .sknp x ∧ i ≠ .ldVxK x) ∨ k = s.key) :
    exec i (s.withKeyTone k tone) = mapNext (State.withKeyTone k tone) (exec i s) := by
  cases i with
  | ret => exact congrArg Host.Outcome.next (popReturn_withKeyTone s k tone)
  | call nnn => exact congrArg Host.Outcome.next (callTo_withKeyTone s _ k tone)
  | seImm | sneImm | seReg | sneReg => exact congrArg Host.Outcome.next (skipIf_withKeyTone s _ k tone)
  | ldB | storeRegs => exact storeBytes_withKeyTone s _ _ k tone
  | drw x y n => exact drw_withKeyTone x y n s k tone
  | loadRegs x => exact loadRegs_withKeyTone x s k tone
  | skp x =>
    obtain rfl : k = s.key := h.resolve_left fun hn => (hn x).1 rfl
    exact keySkip_withTone id x s tone
  | sknp x =>
    obtain rfl : k = s.key := h.resolve_left fun hn => (hn x).2.1 rfl
    exact keySkip_withTone not x s tone
  | ldVxK x =>
    obtain rfl : k = s.key := h.resolve_left fun hn => (hn x).2.2 rfl
    exact ldVxK_withTone x s tone
  | _ => rfl

/-- Settles O15: the keypad replaced, the tone request left as it is. -/
theorem keypadReadByThreeOperations : Obligations.KeypadReadByThreeOperations := by
  intro i s k h
  have hexec := exec_withKeyTone s.toneReq (.inl h : _ ∨ k = s.key)
  refine hexec.trans ?_
  cases hi : exec i s with
  | next t =>
    have htone : t.toneReq = s.toneReq := (exec_frame hi).toneReq
    simp only [mapNext, State.withKeyTone, ← htone]
  | fault f => rfl
  | refused r => rfl

/-- Settles O16: the fetch reads neither field, the start of the step writes `opcode` and the event, the tick the tone
request. -/
theorem opcodeAndOutputsAreNeverRead : Obligations.OpcodeAndOutputsAreNeverRead := by
  intro s w tone e
  have hfetch : State.fetch { s with opcode := w, toneReq := tone, event := e } = s.fetch := rfl
  have hbegin (v : Word) : State.beginStep { s with opcode := w, toneReq := tone, event := e } v =
      (s.beginStep v).withKeyTone (s.beginStep v).key tone := by
    simp only [beginStep_eq, State.withKeyTone]
  unfold step
  rw [hfetch]
  cases s.fetch with
  | error f => rfl
  | ok v =>
    simp only [hbegin, exec_withKeyTone tone (.inr rfl)]
    cases hi : exec (decodeWord v) (s.beginStep v) with
    | next u =>
      have hkey : u.key = (s.beginStep v).key := (exec_frame hi).key
      simp only [mapNext, ← hkey]
      rfl
    | fault f => rfl
    | refused r => rfl

end Sys2Proof.Machine
end

section
/-! PROOFS. The UNKNOWN fallback (40_step_cycle.md R88). -/

namespace Sys2Proof.Machine

open Sys2Proof.Config

theorem exec_unknown (w : Word) (s : State) : exec (.unknown w) s = .next (s.report (.unknownOpcode w)) := rfl

/-- A timer's tick, as a truncated subtraction. -/
theorem countDown_eq_ofNat (t : Byte) : countDown t = BitVec.ofNat 8 (t.toNat - 1) := by
  have := t.isLt
  apply BitVec.eq_of_toNat_eq
  rw [toNat_countDown, BitVec.toNat_ofNat]
  omega

/-- Settles O56. -/
theorem unknownReportsItsOpcode : Obligations.UnknownReportsItsOpcode := by
  intro w s hw
  refine ⟨⟨_, exec_unknown w s, rfl, report_frame s _⟩, fun hf => ?_⟩
  have hexec : exec (decodeWord w) (s.beginStep w) = .next ((s.beginStep w).report (.unknownOpcode w)) := by
    rw [hw, exec_unknown]
  rw [step_of_exec hf hexec, beginStep_eq]
  simp only [State.report, State.tick, countDown_eq_ofNat]

end Sys2Proof.Machine
end

section
/-! PROOFS. The values construction leaves (70_reset_and_hazards.md R31, R220). -/

namespace Sys2Proof.Machine

open Sys2Proof.Config

theorem unlisted_of_not_font (f : Font) {a : Nat} (h : a < 0x050 ∨ 0x0A0 ≤ a) : unlisted f a = 0 := by
  have hout : ¬ (fontBase ≤ a ∧ a < fontBase + fontSize) := by
    simp only [fontBase, fontSize]
    omega
  rw [unlisted, dif_neg hout]

/-- Settles O57: construction fills each item with one value and lists no cell of memory. -/
theorem constructionValues : Obligations.ConstructionValues := by
  rintro p s rfl
  refine ⟨fun r => ?_, rfl, rfl, rfl, fun k => ?_, rfl, rfl, rfl, Screen.get_clear, fun k => ?_,
    fun a ha => unlisted_of_not_font p.font ha⟩
  · simp [State.construct]
  · simp [State.construct]
  · simp [State.construct]

end Sys2Proof.Machine
end

section
/-! PROOFS. The ALU (42_load_alu.md): copies, bitwise operations, the five operations with a flag, and RND. -/

namespace Sys2Proof.Machine

open Sys2Proof.Config

/-! ## What the execute phase answers -/

theorem exec_ldReg (x y : Reg) (s : State) : exec (.ldReg x y) s = .next (s.setV x s.V[y]) := rfl

theorem exec_orReg (x y : Reg) (s : State) : exec (.orReg x y) s = .next (s.setV x (s.V[x] ||| s.V[y])) := rfl

theorem exec_andReg (x y : Reg) (s : State) : exec (.andReg x y) s = .next (s.setV x (s.V[x] &&& s.V[y])) := rfl

theorem exec_xorReg (x y : Reg) (s : State) : exec (.xorReg x y) s = .next (s.setV x (s.V[x] ^^^ s.V[y])) := rfl

theorem exec_addReg (x y : Reg) (s : State) :
    exec (.addReg x y) s = .next (s.setVFlag x (s.V[x] + s.V[y]) (carryOut s.V[x] s.V[y])) := rfl

theorem exec_subReg (x y : Reg) (s : State) :
    exec (.subReg x y) s = .next (s.setVFlag x (s.V[x] - s.V[y]) (notBorrow s.V[x] s.V[y])) := rfl

theorem exec_subn (x y : Reg) (s : State) :
    exec (.subn x y) s = .next (s.setVFlag x (s.V[y] - s.V[x]) (notBorrow s.V[y] s.V[x])) := rfl

theorem exec_shr (x y : Reg) (s : State) :
    exec (.shr x y) s = .next (s.setVFlag x (s.V[x] >>> 1) (shiftedOutLow s.V[x])) := rfl

theorem exec_shl (x y : Reg) (s : State) :
    exec (.shl x y) s = .next (s.setVFlag x (s.V[x] <<< 1) (shiftedOutHigh s.V[x])) := rfl

theorem exec_rnd (x : Reg) (kk : Byte) (s : State) :
    exec (.rnd x kk) s = .next (s.afterDraw.setV x (s.randomByte &&& kk)) := rfl

/-! ## The flags as numbers (R14) -/

theorem toNat_carryFlag (a b : Byte) : (flagByte (carryOut a b)).toNat = if 255 < a.toNat + b.toNat then 1 else 0 := by
  simp only [toNat_flagByte, carryOut, decide_eq_true_eq, gt_iff_lt]

theorem toNat_notBorrowFlag (a b : Byte) : (flagByte (notBorrow a b)).toNat = if b.toNat ≤ a.toNat then 1 else 0 := by
  simp only [toNat_flagByte, notBorrow, decide_eq_true_eq, ge_iff_le]

theorem toNat_lowFlag (a : Byte) : (flagByte (shiftedOutLow a)).toNat = a.toNat % 2 := by
  simp only [toNat_flagByte, shiftedOutLow, BitVec.getLsbD, Nat.testBit_zero, decide_eq_true_eq]
  split <;> omega

theorem toNat_highFlag (a : Byte) : (flagByte (shiftedOutHigh a)).toNat = a.toNat / 128 := by
  have := a.isLt
  simp only [toNat_flagByte, shiftedOutHigh, BitVec.getLsbD, Nat.testBit_eq_decide_div_mod_eq, Nat.reducePow,
    decide_eq_true_eq]
  split <;> omega

/-! ## The obligations -/

/-- An operation on V[x] alone, bit by bit: the byte it writes and the frame. -/
theorem setV_bits {i : Instr} {x : Reg} {s : State} {v : Byte} {f : Nat → Bool} (he : exec i s = .next (s.setV x v))
    (hv : ∀ k : Nat, k < 8 → v.getLsbD k = f k) :
    ∃ t : State, exec i s = .next t ∧ Frame { regs := [x] } s t ∧ ∀ k : Nat, k < 8 → t.V[x].getLsbD k = f k :=
  ⟨_, he, setV_frame s x v, fun k hk => by rw [getElem_setV, hv k hk]⟩

/-- Settles O34. -/
theorem copyAndBitwiseOperations : Obligations.CopyAndBitwiseOperations := by
  intro x y s
  exact ⟨decodeWord_ofNat_XY 0 rfl rfl, decodeWord_ofNat_XY 1 rfl rfl, decodeWord_ofNat_XY 2 rfl rfl,
    decodeWord_ofNat_XY 3 rfl rfl,
    ⟨_, exec_ldReg x y s, getElem_setV s x _, setV_frame s x _⟩,
    setV_bits (exec_orReg x y s) fun k _ => BitVec.getLsbD_or,
    setV_bits (exec_andReg x y s) fun k _ => BitVec.getLsbD_and,
    setV_bits (exec_xorReg x y s) fun k _ => BitVec.getLsbD_xor⟩

/-- An operation that writes V[x] and then the flag: both as numbers, and the frame. -/
theorem setVFlag_result_and_flag {i : Instr} {x : Reg} {s : State} {v : Byte} {c : Bool} {n m : Nat}
    (he : exec i s = .next (s.setVFlag x v c)) (hc : (flagByte c).toNat = n) (hv : v.toNat = m) :
    ∃ t : State, exec i s = .next t ∧ t.V[VF].toNat = n ∧ (x ≠ VF → t.V[x].toNat = m) ∧
      Frame { regs := [x, VF] } s t :=
  ⟨_, he, by rw [setVFlag_VF, hc], fun hx => by rw [setVFlag_result _ _ _ _ hx, hv], setVFlag_frame s x v c⟩

/-- The difference at 8 bits. -/
theorem toNat_sub_byte (a b : Byte) : (a - b).toNat = (a.toNat + 256 - b.toNat) % 256 := by
  have := a.isLt
  have := b.isLt
  rw [BitVec.toNat_sub]
  omega

/-- Settles O35. -/
theorem addSetsCarry : Obligations.AddSetsCarry := by
  intro x y s
  exact ⟨decodeWord_ofNat_XY 4 rfl rfl,
    setVFlag_result_and_flag (exec_addReg x y s) (toNat_carryFlag _ _) (BitVec.toNat_add _ _)⟩

/-- Settles O36: SUBN is SUB with the operands exchanged. -/
theorem subtractionsSetNotBorrow : Obligations.SubtractionsSetNotBorrow := by
  intro x y s
  exact ⟨decodeWord_ofNat_XY 5 rfl rfl, decodeWord_ofNat_XY 7 rfl rfl,
    setVFlag_result_and_flag (exec_subReg x y s) (toNat_notBorrowFlag _ _) (toNat_sub_byte _ _),
    setVFlag_result_and_flag (exec_subn x y s) (toNat_notBorrowFlag _ _) (toNat_sub_byte _ _)⟩

/-- Settles O37. -/
theorem shrShiftsRight : Obligations.ShrShiftsRight := by
  intro x y s
  have hhalf : (s.V[x] >>> 1).toNat = s.V[x].toNat / 2 := by
    rw [BitVec.toNat_ushiftRight, Nat.shiftRight_eq_div_pow, pow_one]
  exact ⟨decodeWord_ofNat_XY 6 rfl rfl, setVFlag_result_and_flag (exec_shr x y s) (toNat_lowFlag _) hhalf⟩

/-- Settles O38. -/
theorem shlShiftsLeft : Obligations.ShlShiftsLeft := by
  intro x y s
  have hdouble : (s.V[x] <<< 1).toNat = s.V[x].toNat * 2 % 256 := by
    rw [BitVec.toNat_shiftLeft, Nat.shiftLeft_eq, pow_one]
  exact ⟨decodeWord_ofNat_XY 0xE rfl rfl, setVFlag_result_and_flag (exec_shl x y s) (toNat_highFlag _) hdouble⟩

/-- No other operation takes a byte from the random source (R131). -/
theorem exec_rndIn_of_not_rnd {i : Instr} {s t : State} (hi : ∀ (z : Reg) (m : Byte), i ≠ .rnd z m)
    (h : exec i s = .next t) : t.rndIn = s.rndIn := by
  have hframe := exec_frame h
  cases i with
  | rnd z m => exact absurd rfl (hi z m)
  | _ => exact hframe.rndIn rfl

/-- Settles O39. -/
theorem rndMasksOneByte : Obligations.RndMasksOneByte := by
  intro x kk s
  have hV : (s.afterDraw.setV x (s.randomByte &&& kk)).V[x] = s.randomByte &&& kk := getElem_setV _ x _
  refine ⟨decodeWord_encodeWord (i := .rnd x kk) rfl, _, exec_rnd x kk s, ⟨s.randomByte, hV⟩, fun r rs hr => ?_,
    fun hr => ?_, afterDraw_setV_frame s x _, fun i u => exec_rndIn_of_not_rnd⟩
  · have hbyte : s.randomByte = r := by rw [State.randomByte, hr]
    rw [hV, hbyte, State.setV_rndIn, State.afterDraw_rndIn, hr]
    exact ⟨rfl, rfl⟩
  · rw [State.setV_rndIn, State.afterDraw_rndIn, hr, List.tail_nil]

end Sys2Proof.Machine
end

section
/-! PROOFS. Index register and memory (43_index_memory.md), and the memory primitives (20_memory.md R43). -/

namespace Sys2Proof.Machine

open Sys2Proof.Config

/-! ## ADD I, Vx and LD F, Vx -/

theorem exec_addI (x : Reg) (s : State) : exec (.addI x) s = .next (s.setI (indexSum s.I s.V[x])) := rfl

theorem exec_ldF (x : Reg) (s : State) : exec (.ldF x) s = .next (s.setI (glyphAddr s.V[x])) := rfl

/-- Settles O41. -/
theorem addIAdds : Obligations.AddIAdds := by
  intro x s
  exact ⟨decodeWord_ofNat_X 0xF 0x1E rfl rfl, _, exec_addI x s, BitVec.toNat_ofNat _ _, setI_frame s _⟩

/-- The largest glyph address is below 65536, so the formula is not reduced. -/
theorem toNat_glyphAddr (v : Byte) : (glyphAddr v).toNat = 0x050 + v.toNat * 5 := by
  have := v.isLt
  simp only [glyphAddr, fontBase, BitVec.toNat_ofNat]
  omega

/-- Settles O42. -/
theorem ldFPointsAtGlyph : Obligations.LdFPointsAtGlyph := by
  intro x s
  exact ⟨decodeWord_ofNat_X 0xF 0x29 rfl rfl, _, exec_ldF x s, toNat_glyphAddr s.V[x], setI_frame s _⟩

/-! ## Stores at I -/

/-- A store at I where no address faults: it completes, its cells hold the bytes, the rest is as before. -/
theorem store_at_I {i : Instr} {s : State} {bs : List Byte} (he : exec i s = outcome (s.storeBytes s.I.toNat bs))
    (hn : bs.length ≤ memSize) (hr : s.reaches s.I.toNat bs.length) :
    ∃ t : State, exec i s = .next t ∧
      (∀ (j : Nat) (h : j < bs.length), t.byteAt ((s.I.toNat + j) % memSize) = bs[j]) ∧
      Frame { cells := s.cellsAtI bs.length } s t :=
  ⟨_, he.trans (outcome_storeBytes hr), fun j h => byteAt_storeCells s s.I.toNat bs hn j h, storeCells_frame s bs⟩

/-- A decimal digit fits in a byte. -/
theorem toNat_digit {d : Nat} (h : d < 10) : (BitVec.ofNat 8 d).toNat = d := by
  rw [BitVec.toNat_ofNat, Nat.mod_eq_of_lt (by omega)]

/-- Settles O43. -/
theorem ldBStoresDigits : Obligations.LdBStoresDigits := by
  intro x s hr
  have hlen : (bcdDigits s.V[x]).length ≤ memSize := show 3 ≤ 4096 by decide
  obtain ⟨t, ht, hbytes, hframe⟩ := store_at_I (exec_ldB x s) hlen hr
  have hv := s.V[x].isLt
  refine ⟨decodeWord_ofNat_X 0xF 0x33 rfl rfl, t, ht, ?_, ?_, ?_, hframe⟩
  · exact (congrArg BitVec.toNat (hbytes 0 (show 0 < 3 by decide))).trans (toNat_digit (by omega))
  · exact (congrArg BitVec.toNat (hbytes 1 (show 1 < 3 by decide))).trans (toNat_digit (by omega))
  · exact (congrArg BitVec.toNat (hbytes 2 (show 2 < 3 by decide))).trans (toNat_digit (by omega))

theorem getElem_regsUpTo (s : State) (x k : Reg) (h : k.val < (s.regsUpTo x).length) :
    (s.regsUpTo x)[k.val] = s.V[k] := by
  simp [State.regsUpTo]

/-- Settles O44. -/
theorem storeRegsStores : Obligations.StoreRegsStores := by
  intro x s hr
  rw [← length_regsUpTo s x] at hr ⊢
  have hlen : (s.regsUpTo x).length ≤ memSize := by rw [length_regsUpTo, memSize]; omega
  obtain ⟨t, ht, hbytes, hframe⟩ := store_at_I (exec_storeRegs x s) hlen hr
  refine ⟨decodeWord_ofNat_X 0xF 0x55 rfl rfl, t, ht, fun k hk => ?_, hframe⟩
  have hk' : k.val < (s.regsUpTo x).length := by
    rw [length_regsUpTo]
    exact Nat.lt_succ_of_le hk
  exact (hbytes k.val hk').trans (getElem_regsUpTo s x k hk')

/-! ## Loads at I -/

/-- Settles O45. -/
theorem loadRegsLoads : Obligations.LoadRegsLoads := by
  intro x s hr
  rcases exec_loadRegs_cases x s with ⟨-, e⟩ | ⟨ho, ha, -⟩
  · exact ⟨decodeWord_ofNat_X 0xF 0x65 rfl rfl, _, e, fun k hk => (loadedV_get s x k).trans (if_pos hk),
      loadedV_frame s x⟩
  · exact absurd hr (State.not_reaches ho (Nat.succ_pos _) ha)

/-- Settles O46: the load finds at I + k the byte that the store put there. -/
theorem storeThenLoadRestoresRegisters : Obligations.StoreThenLoadRestoresRegisters := by
  intro x s u t W hstore hload k hk
  obtain ⟨rfl, hr⟩ := outcome_storeBytes_next (s := s) hstore
  rw [length_regsUpTo] at hr
  obtain ⟨-, u, hu, hbytes, -⟩ := storeRegsStores x s hr
  cases hu.symm.trans (outcome_storeBytes (by rwa [length_regsUpTo]))
  rw [exec_loadRegs_next hload]
  refine (loadedV_get _ x k).trans ?_
  rw [if_pos hk]
  exact hbytes k hk

/-! ## Accesses beyond memory -/

theorem outcome_storeBytes_fault {s : State} {a : Nat} {bs : List Byte} (ho : s.params.oob = .fault)
    (h0 : 0 < bs.length) (ha : memSize < a + bs.length) :
    outcome (s.storeBytes a bs) = .fault (.addressOutOfRange (max a memSize) .write) := by
  rcases storeBytes_cases s a bs with ⟨hr, -⟩ | ⟨-, -, -, e⟩
  · exact absurd hr (State.not_reaches ho h0 ha)
  · rw [e]
    rfl

/-- Settles O47. -/
theorem accessBeyondMemoryFaults : Obligations.AccessBeyondMemoryFaults := by
  intro x y n s ho
  refine ⟨fun ha => ?_, fun ha => ⟨?_, ?_⟩, fun hn ha => ?_⟩
  · exact outcome_storeBytes_fault ho (Nat.succ_pos 2) ha
  · refine outcome_storeBytes_fault ho ?_ ?_ <;> rw [length_regsUpTo]
    · exact Nat.succ_pos _
    · exact ha
  · rcases exec_loadRegs_cases x s with ⟨hr, -⟩ | ⟨-, -, e⟩
    · exact absurd hr (State.not_reaches ho (Nat.succ_pos _) ha)
    · exact e
  · rcases execDrw_cases x y n s with ⟨hr, -⟩ | ⟨-, -, -, e⟩
    · exact absurd hr (State.not_reaches ho hn ha)
    · exact e

/-! ## The primitives -/

theorem effAddrs_one (p : OobPolicy) (k : AccessKind) (a : Nat) :
    effAddrs p k a 1 = match effAddr p k a with | .ok e => .ok [e] | .error f => .error f := by
  rw [effAddrs]
  cases effAddr p k a <;> rfl

/-- Settles O48. -/
theorem memoryPrimitives : Obligations.MemoryPrimitives := by
  intro s k a b v
  refine ⟨fun ha p => ?_, fun ha => ⟨?_, ?_⟩, ?_, fun hb => ?_, ?_, ?_, ?_⟩
  · rw [effAddr_eq, if_pos (.inr ha), Nat.mod_eq_of_lt ha]
  · rw [effAddr_eq, if_pos (.inl rfl)]
  · rw [effAddr_eq, if_neg (not_or.2 ⟨nofun, Nat.not_lt.2 ha⟩)]
  · rw [State.byteAt_putByte, if_pos rfl]
  · rw [State.byteAt_putByte, if_neg hb]
  · rw [State.loadBytes, effAddrs_one]
    cases effAddr s.params.oob .read a <;> rfl
  · rw [State.storeBytes, List.length_singleton, effAddrs_one]
    cases effAddr s.params.oob .write a <;> rfl
  · rw [State.fetch]
    cases effAddr s.params.oob .fetch s.pc.toNat with
    | error f => rfl
    | ok e => cases effAddr s.params.oob .fetch (s.pc.toNat + 1) <;> rfl

end Sys2Proof.Machine
end

section
/-! PROOFS. Display (44_display.md): DRW, pixel by pixel, and two draws in succession. -/

namespace Sys2Proof.Machine

open Sys2Proof.Config

/-! ## What a draw leaves -/

/-- The screen after a draw: the sprite's cells toggled, every other one as before. -/
theorem drw_next_get {x y : Reg} {n : Nibble} {s t : State} (h : exec (.drw x y n) s = .next t) (p : Cell) :
    Screen.get t.pix p = if p ∈ s.drawnCells x y n then !(Screen.get s.pix p) else Screen.get s.pix p := by
  rw [exec_drw_next h]
  exact drawCells_get s.pix (s.drawnCells_nodup x y n) p

/-- VF after a draw: whether one of the sprite's cells was on. -/
theorem drw_next_VF {x y : Reg} {n : Nibble} {s t : State} (h : exec (.drw x y n) s = .next t) :
    t.V[VF] = flagByte ((s.drawnCells x y n).any (Screen.get s.pix)) := by
  rw [exec_drw_next h, getElem_setV]

theorem drw_next_VF_one {x y : Reg} {n : Nibble} {s t : State} (h : exec (.drw x y n) s = .next t) {p : Cell}
    (hp : p ∈ s.drawnCells x y n) (hon : Screen.get s.pix p = true) : t.V[VF] = 1 := by
  rw [drw_next_VF h, List.any_eq_true.2 ⟨p, hp, hon⟩]
  rfl

theorem drw_next_VF_zero {x y : Reg} {n : Nibble} {s t : State} (h : exec (.drw x y n) s = .next t)
    (hoff : ∀ p ∈ s.drawnCells x y n, Screen.get s.pix p = false) : t.V[VF] = 0 := by
  rw [drw_next_VF h, List.any_eq_false.2 fun p hp => Bool.not_eq_true _ ▸ hoff p hp]
  rfl

/-- The sprite's cells, by row and column (R161). -/
theorem mem_drawnCells {s : State} {x y : Reg} {n : Nibble} {p : Cell} :
    p ∈ s.drawnCells x y n ↔ ∃ r c : Nat, r < n.val ∧ c < 8 ∧
      (s.byteAt ((s.I.toNat + r) % 4096)).getLsbD (7 - c) = true ∧
      p.1.val = (s.V[y].toNat + r) % 32 ∧ p.2.val = (s.V[x].toNat + c) % 64 := by
  rw [State.drawnCells, mem_spriteCells]
  refine exists_congr fun r => exists_congr fun c => ?_
  simp only [List.length_map, List.length_range, List.getElem_map, List.getElem_range, exists_prop, spriteCell,
    Prod.ext_iff, Fin.ext_iff, State.getV, Nat.zero_add]

theorem exec_drw_of_reaches {s : State} (x y : Reg) {n : Nibble} (h : s.reaches s.I.toNat n.val) :
    ∃ t : State, exec (.drw x y n) s = .next t := by
  rcases execDrw_cases x y n s with ⟨-, e⟩ | ⟨ho, hn, ha, -⟩
  · exact ⟨_, e⟩
  · exact absurd h (State.not_reaches ho hn ha)

/-- Settles O50: the pixels hit are the sprite's cells. -/
theorem drwTogglesAndReportsCollision : Obligations.DrwTogglesAndReportsCollision := by
  intro x y n s hr hit
  have hmem (p : Cell) : hit p ↔ p ∈ s.drawnCells x y n := mem_drawnCells.symm
  obtain ⟨t, ht⟩ := exec_drw_of_reaches x y hr
  refine ⟨decodeWord_encodeWord (i := .drw x y n) rfl, t, ht, fun p hp => ?_, fun p hp => ?_, fun ⟨p, hp, hon⟩ => ?_,
    fun hoff => ?_, exec_frame ht⟩
  · rw [drw_next_get ht, if_pos ((hmem p).1 hp)]
  · rw [drw_next_get ht, if_neg (mt (hmem p).2 hp)]
  · exact drw_next_VF_one ht ((hmem p).1 hp) hon
  · exact drw_next_VF_zero ht fun p hp => hoff p ((hmem p).2 hp)

/-- The sprite is the same one at the second draw: a draw changes neither memory nor I, and the coordinates stand. -/
theorem drawnCells_second {x y : Reg} {n : Nibble} {s u : State} (h : exec (.drw x y n) s = .next u)
    (hx : u.V[x] = s.V[x]) (hy : u.V[y] = s.V[y]) : u.drawnCells x y n = s.drawnCells x y n := by
  have hframe := exec_frame h
  have hbyte (a : Nat) : u.byteAt a = s.byteAt a := hframe.cells a List.not_mem_nil
  simp only [State.drawnCells, State.getV, hx, hy, hframe.I rfl, hbyte]

/-- Settles O51. -/
theorem drwTwiceRestoresTheScreen : Obligations.DrwTwiceRestoresTheScreen := by
  intro x y n s u t hu ht hx hy
  have hcells := drawnCells_second hu hx hy
  refine ⟨Screen.ext fun p => ?_, fun ⟨p, hoff, hon⟩ => ?_, fun hno => ?_⟩
  · rw [drw_next_get ht, drw_next_get hu, hcells]
    split
    · exact Bool.not_not _
    · rfl
  · have hp : p ∈ u.drawnCells x y n := by
      by_contra hp
      rw [drw_next_get hu, if_neg (hcells ▸ hp), hoff] at hon
      cases hon
    exact drw_next_VF_one ht hp hon
  · refine drw_next_VF_zero ht fun p hp => ?_
    have hget := drw_next_get hu p
    rw [if_pos (hcells ▸ hp)] at hget
    cases hs : Screen.get s.pix p with
    | false => exact hno p hs
    | true => rw [hget, hs, Bool.not_true]

end Sys2Proof.Machine
end

section
/-! PROOFS. Keypad (45_keypad_timers.md): SKP, SKNP and LD Vx, K. -/

namespace Sys2Proof.Machine

open Sys2Proof.Config

/-! ## Key numbers (R177) -/

theorem keyIndex_of_lt {v : Byte} {k : Key} (p : KeyIndexPolicy) (h : v.toNat = k.val) :
    keyIndex p v = .ok (some k) := by
  have hlt : v.toNat < 16 := h ▸ k.isLt
  unfold keyIndex
  rw [dif_pos hlt]
  exact congrArg (fun j => Except.ok (some j)) (Fin.ext h)

theorem keyIndex_mask4 {v : Byte} {k : Key} (h : 15 < v.toNat) (hk : v.toNat % 16 = k.val) :
    keyIndex .mask4 v = .ok (some k) := by
  rw [keyIndex, dif_neg (by omega)]
  exact congrArg (fun j => Except.ok (some j)) (Fin.ext hk)

theorem keyIndex_notPressed {v : Byte} (h : 15 < v.toNat) : keyIndex .notPressed v = .ok none := by
  rw [keyIndex, dif_neg (by omega)]

theorem keyIndex_fault {v : Byte} (h : 15 < v.toNat) : keyIndex .fault v = .error (.keyIndexOutOfRange v) := by
  rw [keyIndex, dif_neg (by omega)]

/-- Settles O53: both are `State.skipIf` on the slot the key number names, SKNP on the negated condition. -/
theorem keySkips : Obligations.KeySkips := by
  intro x s taken both
  have hboth {o : Option Key} (ho : keyIndex s.params.keyIndex s.V[x] = .ok o) : both (keyDown s.key o) :=
    ⟨⟨_, (exec_skp x s).trans (keySkip_of_ok ho), toNat_skipIf_pc s _, skipIf_frame s _⟩,
      ⟨_, (exec_sknp x s).trans (keySkip_of_ok ho), toNat_skipIf_pc s _, skipIf_frame s _⟩⟩
  refine ⟨decodeWord_ofNat_X 0xE 0x9E rfl rfl, decodeWord_ofNat_X 0xE 0xA1 rfl rfl, fun k hk => ?_,
    fun k hv hp hk => ?_, fun hv hp => ?_, fun hv hp => ?_⟩
  · exact hboth (keyIndex_of_lt _ hk)
  · exact hboth (hp ▸ keyIndex_mask4 hv hk)
  · exact hboth (hp ▸ keyIndex_notPressed hv)
  · have hk : keyIndex s.params.keyIndex s.V[x] = .error (.keyIndexOutOfRange s.V[x]) := hp ▸ keyIndex_fault hv
    exact ⟨(exec_skp x s).trans (keySkip_of_error hk), (exec_sknp x s).trans (keySkip_of_error hk)⟩

/-! ## The pick (R172) -/

theorem pickKey_lowest (free : Nat) (ks : List Key) : pickKey .lowest free ks = ks.head? := by
  match ks with
  | [] | [_] | _ :: _ :: _ => rfl

theorem pickKey_highest (free : Nat) (ks : List Key) : pickKey .highest free ks = ks.getLast? := by
  match ks with
  | [] | [_] | _ :: _ :: _ => rfl

/-- On keys in rising order `lowest` picks the least. -/
theorem pickKey_lowest_le {free : Nat} {ks : List Key} {k : Key} (hs : ks.Pairwise (· < ·))
    (h : pickKey .lowest free ks = some k) : ∀ j ∈ ks, k ≤ j := by
  rw [pickKey_lowest, List.head?_eq_some_iff] at h
  obtain ⟨ks, rfl⟩ := h
  intro j hj
  rcases List.mem_cons.1 hj with rfl | hj
  · exact le_rfl
  · exact (List.rel_of_pairwise_cons hs hj).le

/-- On keys in rising order `highest` picks the greatest. -/
theorem le_pickKey_highest {free : Nat} {ks : List Key} {k : Key} (hs : ks.Pairwise (· < ·))
    (h : pickKey .highest free ks = some k) : ∀ j ∈ ks, j ≤ k := by
  rw [pickKey_highest, List.getLast?_eq_some_iff] at h
  obtain ⟨ks, rfl⟩ := h
  intro j hj
  rcases List.mem_append.1 hj with hj | hj
  · exact ((List.pairwise_append.1 hs).2.2 j hj k (List.mem_singleton_self k)).le
  · exact (List.mem_singleton.1 hj).le

/-- Settles O54. -/
theorem keyWait : Obligations.KeyWait := by
  intro x s
  refine ⟨decodeWord_ofNat_X 0xF 0x0A rfl rfl, fun hidle => ?_, fun hdown => ?_⟩
  · refine ⟨_, exec_ldVxK_of_idle x hidle, ?_, setPc_frame s _⟩
    have htwo : (2 : Word).toNat = 2 := rfl
    rw [State.setPc_pc, BitVec.toNat_sub, htwo]
    omega
  · obtain ⟨k, hk, hpick, e⟩ := exec_ldVxK_of_down x hdown
    have hrising := keysDown_rising s.key
    refine ⟨_, k, e, hk, ?_, fun hp j hj => ?_, fun hp j hj => ?_, setV_frame s x _⟩
    · rw [getElem_setV, BitVec.toNat_ofNat, Nat.mod_eq_of_lt (by omega)]
    · exact pickKey_lowest_le hrising (hp ▸ hpick) j ((mem_keysDown _ j).2 hj)
    · exact le_pickKey_highest hrising (hp ▸ hpick) j ((mem_keysDown _ j).2 hj)

end Sys2Proof.Machine
end

section
/-! PROOFS. The flag register after every operation (10_state.md R14). -/

namespace Sys2Proof.Machine

open Sys2Proof.Config

/-- VF after a write to one register. -/
theorem setV_VF (s : State) (x : Reg) (v : Byte) : (s.setV x v).V[VF] = if x = VF then v else s.V[VF] := by
  split
  · next h => subst h; exact getElem_setV s VF v
  · next h => exact get_set_ne _ _ _ _ (Ne.symm h)

/-- The same, where the byte written depends on V[x]. -/
theorem setV_VF_of (s : State) (x : Reg) (f : Byte → Byte) :
    (s.setV x (f s.V[x])).V[VF] = if x = VF then f s.V[VF] else s.V[VF] := by
  rw [setV_VF]
  split
  · next h => rw [h]
  · rfl

theorem eq_ite_of_toNat {b : Byte} {p : Prop} [Decidable p] (h : b.toNat = if p then 1 else 0) :
    b = if p then 1 else 0 := by
  apply BitVec.eq_of_toNat_eq
  rw [h]
  split <;> rfl

theorem flagByte_eq_ite {c : Bool} {p : Prop} [Decidable p] (h : c = true ↔ p) : flagByte c = if p then 1 else 0 := by
  unfold flagByte
  simp only [h]

/-- A draw turns a pixel off exactly where one of its cells was on. -/
theorem drw_collides_iff {x y : Reg} {n : Nibble} {s t : State} (h : exec (.drw x y n) s = .next t) :
    (s.drawnCells x y n).any (Screen.get s.pix) = true ↔
      ∃ c : Cell, Screen.get s.pix c = true ∧ Screen.get t.pix c = false := by
  rw [List.any_eq_true]
  refine exists_congr fun c => ?_
  rw [and_comm, and_congr_right_iff]
  intro hon
  rw [drw_next_get h]
  by_cases hc : c ∈ s.drawnCells x y n
  · simp only [hc, hon, if_true, Bool.not_true]
  · simp [hc, hon]

/-- VF after `Fx0A`. -/
theorem ldVxK_VF {x : Reg} {s t : State} (h : exec (.ldVxK x) s = .next t) :
    (x = VF → (∃ k : Key, s.key[k] = true) → ∃ k : Key, s.key[k] = true ∧ t.V[VF].toNat = k.val) ∧
    ((x ≠ VF ∨ ∀ k : Key, s.key[k] = false) → t.V[VF] = s.V[VF]) := by
  rcases exec_ldVxK_next h with ⟨hidle, rfl⟩ | ⟨k, hk, rfl⟩
  · refine ⟨fun _ ⟨k, hk⟩ => ?_, fun _ => rfl⟩
    rw [hidle k] at hk
    cases hk
  · rw [setV_VF]
    refine ⟨fun hx _ => ⟨k, hk, ?_⟩, fun hx => ?_⟩
    · rw [if_pos hx, BitVec.toNat_ofNat, Nat.mod_eq_of_lt (by omega)]
    · refine if_neg (hx.resolve_right fun hidle => ?_)
      rw [hidle k] at hk
      cases hk

/-- Settles O22: what an operation writes to VF by its update, and for an operation whose frame has no register its
frame. -/
theorem flagRegisterWriters : Obligations.FlagRegisterWriters := by
  intro i s t h
  have hframe := exec_frame h
  cases i with
  | ldImm x kk => cases h; exact setV_VF s x kk
  | addImm x kk => cases h; exact setV_VF_of s x (· + kk)
  | ldReg x y => cases h; exact setV_VF s x s.V[y]
  | orReg x y => cases h; exact setV_VF_of s x (· ||| s.V[y])
  | andReg x y => cases h; exact setV_VF_of s x (· &&& s.V[y])
  | xorReg x y => cases h; exact setV_VF_of s x (· ^^^ s.V[y])
  | ldVxDT x => cases h; exact setV_VF s x s.DT
  | rnd x kk =>
    cases h
    exact ⟨fun hx => ⟨s.randomByte, (setV_VF s.afterDraw x _).trans (if_pos hx)⟩,
      fun hx => (setV_VF s.afterDraw x _).trans (if_neg hx)⟩
  | addReg x y =>
    cases h
    exact (setVFlag_VF s x _ _).trans (eq_ite_of_toNat (toNat_carryFlag _ _))
  | subReg x y | subn x y =>
    cases h
    exact (setVFlag_VF s x _ _).trans (eq_ite_of_toNat (toNat_notBorrowFlag _ _))
  | shr x y =>
    cases h
    exact (congrArg BitVec.toNat (setVFlag_VF s x _ _)).trans (toNat_lowFlag _)
  | shl x y =>
    cases h
    exact (congrArg BitVec.toNat (setVFlag_VF s x _ _)).trans (toNat_highFlag _)
  | drw x y n => exact (drw_next_VF h).trans (flagByte_eq_ite (drw_collides_iff h))
  | ldVxK x => exact ldVxK_VF h
  | loadRegs x =>
    have hlast : VF ≤ x ↔ x = VF := ⟨fun hle => le_antisymm (Fin.le_last x) hle, Eq.ge⟩
    rw [exec_loadRegs_next h]
    exact (loadedV_get s x VF).trans (if_congr hlast rfl rfl)
  | _ => exact hframe.regs VF List.not_mem_nil

end Sys2Proof.Machine
end
